-- ==== Sys2Proof/Word.lean ====
section
/-! DEFINITION. The word types of the core: bytes, 16-bit words, and the three kinds of index. Every value is unsigned (R8). -/

namespace Sys2Proof

/-- A byte: a V register, a timer, a memory cell, a display cell (R20, R28, R32, R50). -/
abbrev Byte := BitVec 8

/-- A 16-bit word: `I`, `PC`, a stack entry, an instruction word (R24, R25, R27, R53). -/
abbrev Word := BitVec 16

/-- A register id `x` in 0..15, naming V0..VF (R20). -/
abbrev RegId := Fin 16

/-- A key id in 0x0..0xF (R30). -/
abbrev KeyId := Fin 16

/-- A display cell index in 0..2047 (R32). -/
abbrev CellIdx := Fin 2048

end Sys2Proof
end

