-- ==== Sys2Proof/Syntax.lean ====
section
/-! DEFINITION. The 35 operations (R84), one constructor per row of `spec/opcode_table.json`, in the table's order.
Operands are those of R80 and R81: register ids, an address zero-extended to 16 bits, a byte, a sprite height. -/

namespace Sys2Proof

/-- The instruction set: exactly the 35 operations of the dispatch table (R2, R84). -/
inductive Instr where
  /-- CLS (R180) -/
  | cls
  /-- RET (R116) -/
  | ret
  /-- NOP (R110) -/
  | nop
  /-- JP addr (R111) -/
  | jp (addr : Word)
  /-- CALL addr (R112) -/
  | call (addr : Word)
  /-- SE Vx, byte (R117) -/
  | seByte (x : RegId) (kk : Byte)
  /-- SNE Vx, byte (R118) -/
  | sneByte (x : RegId) (kk : Byte)
  /-- SE Vx, Vy (R119) -/
  | seReg (x y : RegId)
  /-- LD Vx, byte (R130) -/
  | ldByte (x : RegId) (kk : Byte)
  /-- ADD Vx, byte (R131) -/
  | addByte (x : RegId) (kk : Byte)
  /-- LD Vx, Vy (R133) -/
  | ldReg (x y : RegId)
  /-- OR Vx, Vy (R134) -/
  | or (x y : RegId)
  /-- AND Vx, Vy (R135) -/
  | and (x y : RegId)
  /-- XOR Vx, Vy (R136) -/
  | xor (x y : RegId)
  /-- ADD Vx, Vy (R138) -/
  | addReg (x y : RegId)
  /-- SUB Vx, Vy (R140) -/
  | sub (x y : RegId)
  /-- SHR Vx (R141); `y` is decoded and not read (R86) -/
  | shr (x y : RegId)
  /-- SUBN Vx, Vy (R142) -/
  | subn (x y : RegId)
  /-- SHL Vx (R143); `y` is decoded and not read (R86) -/
  | shl (x y : RegId)
  /-- SNE Vx, Vy (R120) -/
  | sneReg (x y : RegId)
  /-- LD I, addr (R160) -/
  | ldI (addr : Word)
  /-- JP V0, addr (R113) -/
  | jpV0 (addr : Word)
  /-- RND Vx, byte (R145) -/
  | rnd (x : RegId) (kk : Byte)
  /-- DRW Vx, Vy, h (R182) -/
  | drw (x y : RegId) (h : Nat)
  /-- SKP Vx (R190) -/
  | skp (x : RegId)
  /-- SKNP Vx (R191) -/
  | sknp (x : RegId)
  /-- LD Vx, DT (R193) -/
  | ldVxDt (x : RegId)
  /-- LD Vx, K (R194) -/
  | ldVxK (x : RegId)
  /-- LD DT, Vx (R196) -/
  | ldDtVx (x : RegId)
  /-- LD ST, Vx (R197) -/
  | ldStVx (x : RegId)
  /-- ADD I, Vx (R161) -/
  | addI (x : RegId)
  /-- LD F, Vx (R162) -/
  | ldF (x : RegId)
  /-- LD B, Vx (R163) -/
  | ldB (x : RegId)
  /-- LD [I], Vx (R164) -/
  | ldMemVx (x : RegId)
  /-- LD Vx, [I] (R165) -/
  | ldVxMem (x : RegId)
deriving DecidableEq, Repr

end Sys2Proof
end

