-- ==== Sys2Proof/WellFormed.lean ====
section
/-! DEFINITION. Which instruction terms an encoding can hold: an address of 12 bits, a sprite height of 4 bits (R81).
Register ids and bytes are in range by their types. -/

namespace Sys2Proof

/-- "`addr` is a 12-bit address zero-extended to 16 bits" (R81). -/
def addrFits (addr : Word) : Bool := addr.toNat < 0x1000

/-- "`h` a 4-bit count 0..15" (R81). -/
def heightFits (h : Nat) : Bool := h < 16

/-- An instruction whose every operand fits its field (R80, R81). -/
def Instr.wf : Instr → Bool
  | .cls => true
  | .ret => true
  | .nop => true
  | .jp addr => addrFits addr
  | .call addr => addrFits addr
  | .seByte _ _ => true
  | .sneByte _ _ => true
  | .seReg _ _ => true
  | .ldByte _ _ => true
  | .addByte _ _ => true
  | .ldReg _ _ => true
  | .or _ _ => true
  | .and _ _ => true
  | .xor _ _ => true
  | .addReg _ _ => true
  | .sub _ _ => true
  | .shr _ _ => true
  | .subn _ _ => true
  | .shl _ _ => true
  | .sneReg _ _ => true
  | .ldI addr => addrFits addr
  | .jpV0 addr => addrFits addr
  | .rnd _ _ => true
  | .drw _ _ h => heightFits h
  | .skp _ => true
  | .sknp _ => true
  | .ldVxDt _ => true
  | .ldVxK _ => true
  | .ldDtVx _ => true
  | .ldStVx _ => true
  | .addI _ => true
  | .ldF _ => true
  | .ldB _ => true
  | .ldMemVx _ => true
  | .ldVxMem _ => true

end Sys2Proof
end

