-- ==== Sys2Proof/Decode.lean ====
section
/-! DEFINITION. The decoder of `30_encoding.md`: two bytes to `(opcode_class, operand)` (R72 to R78), the exact-match
dispatch table (R83, R84), and the encoder written from the patterns of R86. -/

namespace Sys2Proof

/-- The instruction word, "`{ opcode_class: u16, operand: u16 }`" (R71). -/
structure InstrWord where
  opcodeClass : Word
  operand : Word
deriving DecidableEq, Repr

/-- Why bytes are no instruction: fewer than two of them (R70, R72), or a class with no entry in the table (R83). -/
inductive DecodeError where
  | truncated
  | unknownOpcode (opcodeClass : Word)
deriving DecidableEq, Repr

/-- The word `w = hi * 256 + lo` (R53). -/
def wordOfBytes (hi lo : Byte) : Word := (hi ++ lo).cast rfl

/-- The first byte of a stored word (R53). -/
def hiByte (w : Word) : Byte := w.extractLsb' 8 8

/-- The second byte of a stored word (R53). -/
def loByte (w : Word) : Byte := w.extractLsb' 0 8

/-- The decoder's canonicalisation by top nibble (R73 to R77), total on every pair of bytes (R78). -/
def canonicalise (hi lo : Byte) : InstrWord :=
  let n : Word := ((hi &&& 0xF0) >>> 4).setWidth 16
  let h : Word := hi.setWidth 16
  let l : Word := lo.setWidth 16
  if n = 0x5 ∨ n = 0x8 ∨ n = 0x9 then
    { opcodeClass := (n <<< 4) ||| (l &&& 0xF)
      operand := ((h &&& 0xF) <<< 4) ||| ((l &&& 0xF0) >>> 4) }
  else if n = 0xE ∨ n = 0xF then
    { opcodeClass := (n <<< 8) ||| l
      operand := h &&& 0xF }
  else if n = 0x0 then
    { opcodeClass := l
      operand := 0 }
  else
    { opcodeClass := n
      operand := ((h &&& 0xF) <<< 8) ||| l }

/-! Operand fields by class group (R80), each taken as is (R81). -/

/-- A 4-bit register id at bit `lo` of the operand. -/
def regField (opd : Word) (lo : Nat) : RegId := (opd.extractLsb' lo 4).toFin

/-- `addr = operand[11:0]`, zero-extended to 16 bits. -/
def addrField (opd : Word) : Word := (opd.extractLsb' 0 12).setWidth 16

/-- `imm8 = operand[7:0]`. -/
def byteField (opd : Word) : Byte := opd.extractLsb' 0 8

/-- `h = operand[3:0]`, a count. -/
def heightField (opd : Word) : Nat := (opd.extractLsb' 0 4).toNat

/-- Classes with an address operand. -/
def withAddr (f : Word → Instr) (opd : Word) : Instr := f (addrField opd)

/-- Classes with `x = operand[11:8]` and `imm8`. -/
def withRegByte (f : RegId → Byte → Instr) (opd : Word) : Instr := f (regField opd 8) (byteField opd)

/-- Classes with `x = operand[7:4]`, `y = operand[3:0]`. -/
def withRegReg (f : RegId → RegId → Instr) (opd : Word) : Instr := f (regField opd 4) (regField opd 0)

/-- Class 0x000D: `x = operand[11:8]`, `y = operand[7:4]`, `h = operand[3:0]`. -/
def withRegRegHeight (f : RegId → RegId → Nat → Instr) (opd : Word) : Instr :=
  f (regField opd 8) (regField opd 4) (heightField opd)

/-- Classes with `x = operand[3:0]`. -/
def withReg (f : RegId → Instr) (opd : Word) : Instr := f (regField opd 0)

/-- Classes with no field: the operand is 0. -/
def withNone (i : Instr) (_opd : Word) : Instr := i

/-- Rows 1 to 10 of the dispatch table (R84). -/
def dispatchRows1 : List (Word × (Word → Instr)) :=
  [ (0x00E0, withNone .cls), (0x00EE, withNone .ret), (0x0000, withNone .nop),
    (0x0001, withAddr .jp), (0x0002, withAddr .call),
    (0x0003, withRegByte .seByte), (0x0004, withRegByte .sneByte), (0x0050, withRegReg .seReg),
    (0x0006, withRegByte .ldByte), (0x0007, withRegByte .addByte) ]

/-- Rows 11 to 20 of the dispatch table (R84). -/
def dispatchRows2 : List (Word × (Word → Instr)) :=
  [ (0x0080, withRegReg .ldReg), (0x0081, withRegReg .or), (0x0082, withRegReg .and),
    (0x0083, withRegReg .xor), (0x0084, withRegReg .addReg), (0x0085, withRegReg .sub),
    (0x0086, withRegReg .shr), (0x0087, withRegReg .subn), (0x008E, withRegReg .shl),
    (0x0090, withRegReg .sneReg) ]

/-- Rows 21 to 28 of the dispatch table (R84). -/
def dispatchRows3 : List (Word × (Word → Instr)) :=
  [ (0x000A, withAddr .ldI), (0x000B, withAddr .jpV0), (0x000C, withRegByte .rnd),
    (0x000D, withRegRegHeight .drw), (0x0E9E, withReg .skp), (0x0EA1, withReg .sknp),
    (0x0F07, withReg .ldVxDt), (0x0F0A, withReg .ldVxK) ]

/-- Rows 29 to 35 of the dispatch table (R84). -/
def dispatchRows4 : List (Word × (Word → Instr)) :=
  [ (0x0F15, withReg .ldDtVx), (0x0F18, withReg .ldStVx), (0x0F1E, withReg .addI),
    (0x0F29, withReg .ldF), (0x0F33, withReg .ldB), (0x0F55, withReg .ldMemVx),
    (0x0F65, withReg .ldVxMem) ]

/-- The dispatch table of 35 class keys (R84). -/
def dispatchTable : List (Word × (Word → Instr)) :=
  dispatchRows1 ++ dispatchRows2 ++ dispatchRows3 ++ dispatchRows4

/-- Exact-match lookup of the class; "the `operand` takes no part in the lookup" (R83). -/
def lookupClass (opcodeClass : Word) : Option (Word → Instr) :=
  (dispatchTable.find? fun row => row.1 == opcodeClass).map Prod.snd

/-- Decode two bytes: canonicalise, then dispatch (R72 to R84). -/
def decode (hi lo : Byte) : Except DecodeError Instr :=
  let iw := canonicalise hi lo
  match lookupClass iw.opcodeClass with
  | some build => .ok (build iw.operand)
  | none => .error (.unknownOpcode iw.opcodeClass)

/-- Decode the instruction word `w`, high byte first (R53). -/
def decodeWord (w : Word) : Except DecodeError Instr := decode (hiByte w) (loByte w)

/-- Decode the instruction at the front of any bytes, and the bytes after it: "exactly 2 bytes" (R70). -/
def decodeBytes : List Byte → Except DecodeError (Instr × List Byte)
  | hi :: lo :: rest => (decode hi lo).map fun i => (i, rest)
  | _ => .error .truncated

/-- The bytes, in the order they are stored, of the instruction whose table bits are `w` (R53, R70): the bits at
and above `nbits` are 0, and an instruction has 16 bits (log 19). -/
def tableWordBytes (nbits w : Nat) : List Byte :=
  let word := BitVec.ofNat 16 (w % 2 ^ nbits)
  [hiByte word, loByte word]

/-- The instruction the decoder reads from the table's bits `w` (none where it refuses). -/
def decodeTableWord (nbits w : Nat) : Option Instr :=
  match decodeBytes (tableWordBytes nbits w) with
  | .ok (i, _) => some i
  | .error _ => none

/-! The encoder, from the primary patterns of R86. A bit the decoder discards (the low nibble of `hi` in format Z) is
written 0; the alias words of R88 are other spellings and are never written (log 11). -/

/-- Format Z: `0000 ---- kk` (R79). -/
def formatZ (kk : Byte) : Word := (0x0#4 ++ 0x0#4 ++ kk).cast rfl

/-- Format A: `n nnn` (R79). -/
def formatA (n : BitVec 4) (addr : Word) : Word := (n ++ addr.extractLsb' 0 12).cast rfl

/-- Formats XB and XF: `n x kk` (R79). -/
def formatXB (n : BitVec 4) (x : RegId) (kk : Byte) : Word :=
  (n ++ BitVec.ofFin (w := 4) x ++ kk).cast rfl

/-- Formats XYK and XYH: `n x y k` (R79). -/
def formatXYK (n : BitVec 4) (x y : RegId) (k : BitVec 4) : Word :=
  (n ++ BitVec.ofFin (w := 4) x ++ BitVec.ofFin (w := 4) y ++ k).cast rfl

/-- The primary encoding of an instruction (R86). -/
def encode : Instr → Word
  | .cls => formatZ 0xE0
  | .ret => formatZ 0xEE
  | .nop => formatZ 0x00
  | .jp addr => formatA 0x1 addr
  | .call addr => formatA 0x2 addr
  | .seByte x kk => formatXB 0x3 x kk
  | .sneByte x kk => formatXB 0x4 x kk
  | .seReg x y => formatXYK 0x5 x y 0x0
  | .ldByte x kk => formatXB 0x6 x kk
  | .addByte x kk => formatXB 0x7 x kk
  | .ldReg x y => formatXYK 0x8 x y 0x0
  | .or x y => formatXYK 0x8 x y 0x1
  | .and x y => formatXYK 0x8 x y 0x2
  | .xor x y => formatXYK 0x8 x y 0x3
  | .addReg x y => formatXYK 0x8 x y 0x4
  | .sub x y => formatXYK 0x8 x y 0x5
  | .shr x y => formatXYK 0x8 x y 0x6
  | .subn x y => formatXYK 0x8 x y 0x7
  | .shl x y => formatXYK 0x8 x y 0xE
  | .sneReg x y => formatXYK 0x9 x y 0x0
  | .ldI addr => formatA 0xA addr
  | .jpV0 addr => formatA 0xB addr
  | .rnd x kk => formatXB 0xC x kk
  | .drw x y h => formatXYK 0xD x y (BitVec.ofNat 4 h)
  | .skp x => formatXB 0xE x 0x9E
  | .sknp x => formatXB 0xE x 0xA1
  | .ldVxDt x => formatXB 0xF x 0x07
  | .ldVxK x => formatXB 0xF x 0x0A
  | .ldDtVx x => formatXB 0xF x 0x15
  | .ldStVx x => formatXB 0xF x 0x18
  | .addI x => formatXB 0xF x 0x1E
  | .ldF x => formatXB 0xF x 0x29
  | .ldB x => formatXB 0xF x 0x33
  | .ldMemVx x => formatXB 0xF x 0x55
  | .ldVxMem x => formatXB 0xF x 0x65

/-- The two stored bytes of an instruction, high byte first (R53). -/
def encodeBytes (i : Instr) : List Byte := [hiByte (encode i), loByte (encode i)]

end Sys2Proof
end

