-- ==== Sys2Proof/Config.lean ====
section
/-! DEFINITION. What this hardware fixes (R6), and the one value the spec leaves free: the random byte of RND (R146). -/

namespace Sys2Proof.Config

/-- `MEM_SIZE`: this hardware takes 4096 bytes (R6, R50, D4; log 5). -/
abbrev memSize : Nat := 4096

/-- `ROM_BASE`: where a ROM is loaded and where `PC` starts (R6, R52). -/
abbrev romBase : Nat := 0x200

/-- `DISPLAY_W` (R6, R32). -/
abbrev displayW : Nat := 64

/-- `DISPLAY_H` (R6, R32). -/
abbrev displayH : Nat := 32

/-- `STACK_DEPTH` (R6, R27). -/
abbrev stackDepth : Nat := 16

/-- The byte of the `k`-th draw from the random source: "the byte may be any of 0..255, and nothing in
the core constrains the sequence" (R146, U7).
A free value: no body, so that no proof can know it (log 2). -/
opaque randomByte : Nat → Byte

end Sys2Proof.Config
end

