-- ==== Sys2Proof/Machine/Memory.lean ====
section
/-! DEFINITION. The one memory (R50): a sparse list of the bytes that differ from the reset contents, in one canonical
form, so that equal memories are equal data. What an unlisted address reads as is the reset contents (R39, R242). -/

namespace Sys2Proof.Machine

/-- Glyphs 0 to 7 of the font table (R242); glyph 0 is the source's, the others general knowledge (log 4). -/
def fontGlyphs0 : List Byte :=
  [0xF0, 0x90, 0x90, 0x90, 0xF0] ++ [0x20, 0x60, 0x20, 0x20, 0x70] ++
  [0xF0, 0x10, 0xF0, 0x80, 0xF0] ++ [0xF0, 0x10, 0xF0, 0x10, 0xF0] ++
  [0x90, 0x90, 0xF0, 0x10, 0x10] ++ [0xF0, 0x80, 0xF0, 0x10, 0xF0] ++
  [0xF0, 0x80, 0xF0, 0x90, 0xF0] ++ [0xF0, 0x10, 0x20, 0x40, 0x40]

/-- Glyphs 8 to F of the font table (R242; log 4). -/
def fontGlyphs8 : List Byte :=
  [0xF0, 0x90, 0xF0, 0x90, 0xF0] ++ [0xF0, 0x90, 0xF0, 0x10, 0xF0] ++
  [0xF0, 0x90, 0xF0, 0x90, 0x90] ++ [0xE0, 0x90, 0xE0, 0x90, 0xE0] ++
  [0xF0, 0x80, 0x80, 0x80, 0xF0] ++ [0xE0, 0x90, 0x90, 0x90, 0xE0] ++
  [0xF0, 0x80, 0xF0, 0x80, 0xF0] ++ [0xF0, 0x80, 0xF0, 0x80, 0x80]

/-- `FONT`: 16 glyphs of 5 bytes, glyph `k` at `5*k` (R242). -/
def font : List Byte := fontGlyphs0 ++ fontGlyphs8

/-- The byte an address holds at reset: the font at 0x000..0x04F, 0 elsewhere (R39, R241, R242; log 3, log 5). -/
def resetByte (a : Nat) : Byte := font.getD a 0

/-- Memory: the listed bytes, by rising address (log 5). -/
abbrev Memory := List Host.Cell

/-- `MemRead(a, 1)` (R9): the listed byte, or the reset contents. Callers check the bound first (R57, R72). -/
def Memory.read : Memory → Nat → Byte
  | [], a => resetByte a
  | (b, v) :: m, a => if a = b then v else Memory.read m a

/-- Drop the entry of an address: it then reads as the reset contents. -/
def Memory.erase : Memory → Nat → Memory
  | [], _ => []
  | (b, v) :: m, a => if a = b then m else (b, v) :: Memory.erase m a

/-- List the byte `v` at `a`, in its place. -/
def Memory.insert : Memory → Nat → Byte → Memory
  | [], a, v => [(a, v)]
  | (b, u) :: m, a, v =>
    if a < b then (a, v) :: (b, u) :: m
    else if a = b then (a, v) :: m
    else (b, u) :: Memory.insert m a v

/-- `MemWrite(a, 1, v)` (R9), keeping the canonical form. Callers check the bound first (R57); an address that
does not exist (R51) has no byte to write (log 10). -/
def Memory.write (m : Memory) (a : Nat) (v : Byte) : Memory :=
  if a < Config.memSize then
    if v = resetByte a then m.erase a else m.insert a v
  else m

/-- Single-byte writes at ascending addresses from `a` (R54). -/
def Memory.writeBytes (m : Memory) (a : Nat) : List Byte → Memory
  | [] => m
  | v :: vs => Memory.writeBytes (m.write a v) (a + 1) vs

/-- Single-byte reads at `n` ascending addresses from `a` (R54). -/
def Memory.readBytes (m : Memory) (a : Nat) : Nat → List Byte
  | 0 => []
  | n + 1 => m.read a :: Memory.readBytes m (a + 1) n

/-- The canonical form: addresses strictly rising and existing (R51), no entry equal to what an unlisted address
reads as. -/
abbrev Memory.wf (m : Memory) : Prop :=
  m.Pairwise (fun c d => c.1 < d.1) ∧ ∀ c ∈ m, c.1 < Config.memSize ∧ c.2 ≠ resetByte c.1

end Sys2Proof.Machine
end

