-- ==== Sys2Proof/Machine/State.lean ====
section
/-! DEFINITION. The machine state, all of R39, as plain data; the fault records of R210; the state after reset (R240). -/

namespace Sys2Proof.Machine

/-- What the latch `FAULT` records: one of the kinds a cycle raises (codes 1 to 6 of R210) with its information. -/
inductive FaultInfo where
  /-- Code 1, raised by the fetch when `PC + 1 >= MEM_SIZE` (R72). -/
  | decodeOutOfBounds (pc : Word)
  /-- Code 2, raised by dispatch when the class is none of the 35 keys (R83): `pc`, the word, the class. -/
  | unknownOpcode (pc w opcodeClass : Word)
  /-- Code 3, raised by CALL when `SP == 16` (R112). -/
  | stackOverflow (pc : Word)
  /-- Code 4, raised by RET when `SP == 0` (R116). -/
  | stackUnderflow (pc : Word)
  /-- Code 5, raised by LD B, LD [I], LD Vx [I] and DRW (R57): `pc` and the lowest address at or above `MEM_SIZE`. -/
  | memoryOutOfBounds (pc : Word) (addr : Nat)
  /-- Code 6, raised by SKP and SKNP when `V[x] > 0xF` (R192): `pc` and `V[x]`. -/
  | keyOutOfRange (pc : Word) (key : Byte)
deriving DecidableEq, Repr

/-- Why the machine takes no step. -/
inductive Fault where
  /-- Raised by `step` alone, while `FAULT` is not none: "the core executes no cycle; a step request is answered
  `FAULTED(kind)` again without change" (R213). Safe: no instruction runs (log 1). -/
  | coreFaulted (f : FaultInfo)
  /-- Raised by `boot` alone, code 7 of R210: the ROM cannot be read or does not fit, and no session starts (R243).
  Safe: no session, no run. -/
  | romLoadFailure
deriving DecidableEq, Repr

/-- Why the model gives no meaning. -/
inductive Refusal where
  /-- Raised by an arm of `exec` for an instruction with no meaning yet; no arm of this model does. Safe. -/
  | notModelled (mnemonic : String)
deriving DecidableEq, Repr

/-- The machine state: every row of R39, and the model's own counter of random draws. -/
structure State where
  /-- V0..VF (R20) -/
  v : Vector Byte 16
  /-- I (R24) -/
  i : Word
  /-- PC (R25) -/
  pc : Word
  /-- SP, 0..16 (R26; log 8) -/
  sp : Fin 17
  /-- stack[0..15] (R27) -/
  stack : Vector Word 16
  /-- DT (R28) -/
  dt : Byte
  /-- ST (R29) -/
  st : Byte
  /-- Key[0..15], the snapshot a cycle reads (R30, R31; log 7) -/
  key : Vector Bool 16
  /-- Screen[0..2047], one byte a cell, value 0 or 1 (R32, R33; log 9) -/
  screen : Vector Byte 2048
  /-- DRAWN (R34) -/
  drawn : Bool
  /-- FAULT, none or a record (R35) -/
  fault : Option FaultInfo
  /-- memory (R50; log 5) -/
  mem : Memory
  /-- The model's own field: how many random bytes RND has drawn (R146; log 2) -/
  rndDraws : Nat
deriving DecidableEq, Repr

/-- The state after reset (R39, R240): a session started with a ROM of 0 bytes (R243; log 3, log 6). -/
def State.reset : State where
  v := Vector.replicate 16 0
  i := 0
  pc := BitVec.ofNat 16 Config.romBase
  sp := 0
  stack := Vector.replicate 16 0
  dt := 0
  st := 0
  key := Vector.replicate 16 false
  screen := Vector.replicate 2048 0
  drawn := false
  fault := none
  mem := []
  rndDraws := 0

end Sys2Proof.Machine
end

