-- ==== Sys2Proof/Machine/Ops.lean ====
section
/-! DEFINITION. The named operations every meaning is written with: register reads and writes, the advance and the
skip of the program counter, raising a fault, memory accesses, the fetch (R9, R72, R100 to R104, R213). -/

namespace Sys2Proof.Machine

/-- The outcomes of one operation or one step. -/
abbrev Result := Host.Outcome State Fault Refusal

/-- `V[x]` (R9, R20). -/
def State.reg (s : State) (x : RegId) : Byte := s.v.get x

/-- `V[x] <- b` (R9, R20): no register is hardwired. -/
def State.setReg (s : State) (x : RegId) (b : Byte) : State := { s with v := s.v.set x.val b x.isLt }

/-- The id of `VF` (R9, R21). -/
def vf : RegId := 15

/-- `I <- w` (R9). -/
def State.setI (s : State) (w : Word) : State := { s with i := w }

/-- `pc <- w` (R9). -/
def State.setPc (s : State) (w : Word) : State := { s with pc := w }

/-- `pc <- (pc + 2) mod 65536`, the trailing advance of a cycle (R100, R103, R105). -/
def State.advance (s : State) : State := s.setPc (s.pc + 2)

/-- `if c: skip`, the skip being the same addition in the operation's body (R104). -/
def State.skipIf (s : State) (c : Bool) : State := if c then s.setPc (s.pc + 2) else s

/-- An operation that ends with ADVANCE (R103). -/
def done (s : State) : Result := .next s.advance

/-- An operation that ends with HOLD (R103). -/
def hold (s : State) : Result := .next s

/-- `raise Fault(kind, info)`: "writes `FAULT <- (kind, info)` and ends the cycle with no other effect" (R213), so
`pc` still holds the address of the faulting instruction (R106, R211; log 1). Nothing is saved and control goes
nowhere (R216); there is no return but reset (R217). -/
def raise (f : FaultInfo) (s : State) : Result := .next { s with fault := some f }

/-- `MemRead(a, 1)` (R9). -/
def State.readMem (s : State) (a : Nat) : Byte := s.mem.read a

/-- `MemWrite` of the bytes at `a, a+1, ...`, in ascending order (R9, R54). -/
def State.storeBytes (s : State) (a : Nat) (bs : List Byte) : State := { s with mem := s.mem.writeBytes a bs }

/-- The two bytes at `pc`, or the fetch's fault when `PC + 1 >= MEM_SIZE`, computed without wrap-around (R72). -/
def State.fetchBytes (s : State) : Except FaultInfo (Byte × Byte) :=
  if Config.memSize ≤ s.pc.toNat + 1 then .error (.decodeOutOfBounds s.pc)
  else .ok (s.readMem s.pc.toNat, s.readMem (s.pc.toNat + 1))

/-- Fetch and dispatch (R72, R83), in the order of R214: the fetch bound, then the class lookup. -/
def State.fetch (s : State) : Except FaultInfo Instr :=
  match s.fetchBytes with
  | .error f => .error f
  | .ok (hi, lo) =>
    match decode hi lo with
    | .ok i => .ok i
    | .error _ => .error (.unknownOpcode s.pc (wordOfBytes hi lo) (canonicalise hi lo).opcodeClass)

end Sys2Proof.Machine
end

