-- ==== Sys2Proof/Machine/Flags.lean ====
section
/-! DEFINITION. The flag computations: what `VF` receives as a flag (R23), 1 or 0. -/

namespace Sys2Proof.Machine

/-- `(c ? 1 : 0)` (R9). -/
def flagByte (c : Bool) : Byte := if c then 1 else 0

/-- `VF <- flag` (R21, R23). -/
def State.setFlag (s : State) (c : Bool) : State := s.setReg vf (flagByte c)

/-- The carry of ADD Vx, Vy: the 9-bit sum exceeds 255 (R138). -/
def carryOut (a b : Byte) : Bool := 255 < a.toNat + b.toNat

/-- No borrow in the strict sense of SUB and SUBN: the minuend is greater than the subtrahend (R129, R140, R142). -/
def strictlyGreater (a b : Byte) : Bool := b.toNat < a.toNat

/-- The bit SHR shifts out, bit 0 (R141). -/
def lowBit (a : Byte) : Bool := a &&& 1 = 1

/-- The bit SHL shifts out, bit 7 (R143). -/
def highBit (a : Byte) : Bool := a &&& 0x80 ≠ 0

end Sys2Proof.Machine
end

