-- ==== Sys2Proof/Machine/Operands.lean ====
section
/-! DEFINITION. The operand forms: memory through `I` with a small offset (R166) and its bound check (R57), the
registers `V0..Vx`, a key named by a register's value (R190, R192), and the widened sums of address arithmetic. -/

namespace Sys2Proof.Machine

/-- The fault check of an operation that touches `n` bytes from `I`: the lowest address at or above `MEM_SIZE` that
it would touch, if any (R57). With no byte touched there is nothing to check (R182, `h = 0`). -/
def lowestBad (base : Word) (n : Nat) : Option Nat :=
  if 0 < n ∧ Config.memSize ≤ base.toNat + n - 1 then some (max base.toNat Config.memSize) else none

/-- Run `body` when all `n` bytes from `I` exist, else raise MemoryOutOfBounds before any effect (R57, R211). -/
def withDataRange (n : Nat) (s : State) (body : Result) : Result :=
  match lowestBad s.i n with
  | some a => raise (.memoryOutOfBounds s.pc a) s
  | none => body

/-- `V0..Vx`, ascending and inclusive of `x` (R164, R165). -/
def regsUpTo (x : RegId) : List RegId := (List.finRange 16).filter fun k => k ≤ x

/-- Run `body` on the key named by the value of `V[x]`, else raise KeyOutOfRange before any effect (R190 to R192). -/
def withKey (x : RegId) (s : State) (body : KeyId → Result) : Result :=
  if h : (s.reg x).toNat < 16 then body ⟨(s.reg x).toNat, h⟩
  else raise (.keyOutOfRange s.pc (s.reg x)) s

/-- `Key[k]`, from the snapshot of the cycle (R31). -/
def State.pressed (s : State) (k : KeyId) : Bool := s.key.get k

/-- `min { k | Key[k] }`, if any key is pressed (R194). -/
def State.lowestKey (s : State) : Option KeyId := (List.finRange 16).find? fun k => s.pressed k

/-- `(w + b) mod 65536` (R113, R161). -/
def addByteToWord (w : Word) (b : Byte) : Word := BitVec.ofNat 16 (w.toNat + b.toNat)

/-- The decimal digits of a byte: hundreds, tens, ones (R163). -/
def bcdDigits (b : Byte) : List Byte :=
  [BitVec.ofNat 8 (b.toNat / 100), BitVec.ofNat 8 (b.toNat / 10 % 10), BitVec.ofNat 8 (b.toNat % 10)]

end Sys2Proof.Machine
end

