-- ==== Sys2Proof/Machine/Alu.lean ====
section
/-! DEFINITION. Register and arithmetic operations (`42_alu.md`). All arithmetic is unsigned, modulo 256 (R129).
Statements run in the order written, each reading the state the previous left (R9, D2; log 13). -/

namespace Sys2Proof.Machine

/-- LD Vx, byte (R130). -/
def execLdByte (x : RegId) (kk : Byte) (s : State) : Result := done (s.setReg x kk)

/-- ADD Vx, byte (R131): wraps, no flag. -/
def execAddByte (x : RegId) (kk : Byte) (s : State) : Result := done (s.setReg x (s.reg x + kk))

/-- LD Vx, Vy (R133). -/
def execLdReg (x y : RegId) (s : State) : Result := done (s.setReg x (s.reg y))

/-- OR Vx, Vy (R134): no flag. -/
def execOr (x y : RegId) (s : State) : Result := done (s.setReg x (s.reg x ||| s.reg y))

/-- AND Vx, Vy (R135): no flag. -/
def execAnd (x y : RegId) (s : State) : Result := done (s.setReg x (s.reg x &&& s.reg y))

/-- XOR Vx, Vy (R136): no flag. -/
def execXor (x y : RegId) (s : State) : Result := done (s.setReg x (s.reg x ^^^ s.reg y))

/-- ADD Vx, Vy (R138): sum and carry from the old values, `VF` written last. -/
def execAddReg (x y : RegId) (s : State) : Result :=
  let carry := carryOut (s.reg x) (s.reg y)
  done ((s.setReg x (s.reg x + s.reg y)).setFlag carry)

/-- SUB Vx, Vy (R140): `VF` first, then the difference of the registers as they then stand. -/
def execSub (x y : RegId) (s : State) : Result :=
  let s' := s.setFlag (strictlyGreater (s.reg x) (s.reg y))
  done (s'.setReg x (s'.reg x - s'.reg y))

/-- SHR Vx (R141): `VF` first, then `V[x]` as it then stands, shifted; `y` is not read. -/
def execShr (x _y : RegId) (s : State) : Result :=
  let s' := s.setFlag (lowBit (s.reg x))
  done (s'.setReg x (s'.reg x >>> 1))

/-- SUBN Vx, Vy (R142): `VF` first, then the difference of the registers as they then stand. -/
def execSubn (x y : RegId) (s : State) : Result :=
  let s' := s.setFlag (strictlyGreater (s.reg y) (s.reg x))
  done (s'.setReg x (s'.reg y - s'.reg x))

/-- SHL Vx (R143): `VF` first, then `V[x]` as it then stands, shifted; `y` is not read. -/
def execShl (x _y : RegId) (s : State) : Result :=
  let s' := s.setFlag (highBit (s.reg x))
  done (s'.setReg x (s'.reg x <<< 1))

/-- `RandomByte()` (R146): the cycle's random byte, and the state with one more byte drawn (log 2). -/
def State.drawByte (s : State) : Byte × State :=
  (Config.randomByte s.rndDraws, { s with rndDraws := s.rndDraws + 1 })

/-- RND Vx, byte with the byte that was drawn (R145). -/
def rndWith (x : RegId) (kk : Byte) (drawn : Byte × State) : Result := done (drawn.2.setReg x (kk &&& drawn.1))

/-- RND Vx, byte (R145): one byte is drawn, whatever `kk` is (R146). -/
def execRnd (x : RegId) (kk : Byte) (s : State) : Result := rndWith x kk s.drawByte

end Sys2Proof.Machine
end

