-- ==== Sys2Proof/Machine/Control.lean ====
section
/-! DEFINITION. Control flow (`41_control_flow.md`): NOP, JP, CALL, JP V0, RET and the skips on register values. -/

namespace Sys2Proof.Machine

/-- NOP (R110): no effect, ADVANCE. -/
def execNop (s : State) : Result := done s

/-- JP addr (R111): `pc <- addr`, HOLD (D1; log 12). -/
def execJp (addr : Word) (s : State) : Result := hold (s.setPc addr)

/-- CALL addr (R112): StackOverflow when `SP == 16`; else push the CALL's own address and jump, HOLD (log 12). -/
def execCall (addr : Word) (s : State) : Result :=
  if h : s.sp.val < 16 then
    hold { s with stack := s.stack.set s.sp.val s.pc h, pc := addr, sp := ⟨s.sp.val + 1, by omega⟩ }
  else raise (.stackOverflow s.pc) s

/-- JP V0, addr (R113): `pc <- (V[0] + addr) mod 65536`, HOLD (log 12). -/
def execJpV0 (addr : Word) (s : State) : Result := hold (s.setPc (addByteToWord addr (s.reg 0)))

/-- RET (R116): StackUnderflow when `SP == 0`; else `pc <- stack[SP-1]`, `SP <- SP - 1`, ADVANCE. -/
def execRet (s : State) : Result :=
  if h : 0 < s.sp.val then
    done { s with pc := s.stack[s.sp.val - 1]'(by omega), sp := ⟨s.sp.val - 1, by omega⟩ }
  else raise (.stackUnderflow s.pc) s

/-- SE Vx, byte (R117). -/
def execSeByte (x : RegId) (kk : Byte) (s : State) : Result := done (s.skipIf (s.reg x == kk))

/-- SNE Vx, byte (R118). -/
def execSneByte (x : RegId) (kk : Byte) (s : State) : Result := done (s.skipIf (s.reg x != kk))

/-- SE Vx, Vy (R119). -/
def execSeReg (x y : RegId) (s : State) : Result := done (s.skipIf (s.reg x == s.reg y))

/-- SNE Vx, Vy (R120). -/
def execSneReg (x y : RegId) (s : State) : Result := done (s.skipIf (s.reg x != s.reg y))

end Sys2Proof.Machine
end

