-- ==== Sys2Proof/Machine/Display.lean ====
section
/-! DEFINITION. Display operations (`44_display.md`): CLS and the XOR blit of DRW, wrapping each pixel modulo 64 and 32
(R183, D3; log 14). -/

namespace Sys2Proof.Machine

/-- CLS (R180): every cell 0, `DRAWN <- 1`. -/
def execCls (s : State) : Result := done { s with screen := Vector.replicate 2048 0, drawn := true }

/-- The cell of the pixel in row `i`, column `j` of a sprite at `(vx, vy)`:
`((vx + j) mod 64) + ((vy + i) mod 32) * 64` (R182, R183). -/
def pixelIndex (vx vy : Byte) (i j : Nat) : CellIdx :=
  ⟨(vx.toNat + j) % Config.displayW + (vy.toNat + i) % Config.displayH * Config.displayW, by
    have h1 : (vx.toNat + j) % Config.displayW < 64 := Nat.mod_lt _ (by decide)
    have h2 : (vy.toNat + i) % Config.displayH < 32 := Nat.mod_lt _ (by decide)
    have h3 : Config.displayW = 64 := rfl
    rw [h3] at *
    omega⟩

/-- The display as a draw leaves it so far, and whether a lit cell has been toggled. -/
structure Canvas where
  screen : Vector Byte 2048
  hit : Bool
deriving DecidableEq, Repr

/-- One set bit of a sprite: `if Screen[idx] == 1: VF <- 1; Screen[idx] <- Screen[idx] ^ 1` (R182). -/
def togglePixel (idx : CellIdx) (c : Canvas) : Canvas where
  screen := c.screen.set idx.val (c.screen.get idx ^^^ 1) idx.isLt
  hit := c.hit || c.screen.get idx == 1

/-- Column `j` of a sprite row: bit `7 - j` (R182). -/
def spriteBit (row : Byte) (j : Nat) : Bool := row.getLsbD (7 - j)

/-- One sprite row, bit 7 first (R182). -/
def drawRow (vx vy : Byte) (i : Nat) (row : Byte) (c : Canvas) : Canvas :=
  (List.range 8).foldl (fun c j => if spriteBit row j then togglePixel (pixelIndex vx vy i j) c else c) c

/-- The sprite's rows from row `i` on, top to bottom (R182). -/
def drawRows (vx vy : Byte) (i : Nat) : List Byte → Canvas → Canvas
  | [], c => c
  | row :: rows, c => drawRows vx vy (i + 1) rows (drawRow vx vy i row c)

/-- DRW Vx, Vy, h (R182): the origin is read before `VF` is cleared; the rows are the bytes at `I..I+h-1`; `VF` is 1
when a lit cell was toggled, else 0, also on a second draw (R184; log 20); `DRAWN <- 1`. -/
def execDrw (x y : RegId) (h : Nat) (s : State) : Result :=
  withDataRange h s <|
    let c := drawRows (s.reg x) (s.reg y) 0 (s.mem.readBytes s.i.toNat h) { screen := s.screen, hit := false }
    done ({ s with screen := c.screen, drawn := true }.setFlag c.hit)

end Sys2Proof.Machine
end

