-- ==== Sys2Proof/Machine/Index.lean ====
section
/-! DEFINITION. Index register and memory operations (`43_index_memory.md`). Every range check precedes the first
write (R57); `I` is never modified by an access (R166). -/

namespace Sys2Proof.Machine

/-- LD I, addr (R160). -/
def execLdI (addr : Word) (s : State) : Result := done (s.setI addr)

/-- ADD I, Vx (R161): 16-bit wrap, no flag. -/
def execAddI (x : RegId) (s : State) : Result := done (s.setI (addByteToWord s.i (s.reg x)))

/-- LD F, Vx (R162): `I <- V[x] * 5`, taken literally. -/
def execLdF (x : RegId) (s : State) : Result := done (s.setI (BitVec.ofNat 16 ((s.reg x).toNat * 5)))

/-- LD B, Vx (R163): the three decimal digits at `I`, `I+1`, `I+2`. -/
def execLdB (x : RegId) (s : State) : Result :=
  withDataRange 3 s (done (s.storeBytes s.i.toNat (bcdDigits (s.reg x))))

/-- LD [I], Vx (R164): `V0..Vx` at `I..I+x`. -/
def execLdMemVx (x : RegId) (s : State) : Result :=
  withDataRange (x.val + 1) s (done (s.storeBytes s.i.toNat ((regsUpTo x).map s.reg)))

/-- The loop of LD Vx, [I]: `V[k] <- MemRead(I + k, 1)` for each of the registers (R165). -/
def loadRegs (ks : List RegId) (s : State) : State :=
  ks.foldl (fun t k => t.setReg k (t.readMem (t.i.toNat + k.val))) s

/-- LD Vx, [I] (R165): `V0..Vx` from `I..I+x`. -/
def execLdVxMem (x : RegId) (s : State) : Result :=
  withDataRange (x.val + 1) s (done (loadRegs (regsUpTo x) s))

end Sys2Proof.Machine
end

