-- ==== Sys2Proof/Machine/Input.lean ====
section
/-! DEFINITION. Keypad and timer operations (`45_input_timers.md`). The key is named by the value of `V[x]` (R190). -/

namespace Sys2Proof.Machine

/-- SKP Vx (R190). -/
def execSkp (x : RegId) (s : State) : Result := withKey x s fun k => done (s.skipIf (s.pressed k))

/-- SKNP Vx (R191). -/
def execSknp (x : RegId) (s : State) : Result := withKey x s fun k => done (s.skipIf (!s.pressed k))

/-- LD Vx, DT (R193). -/
def execLdVxDt (x : RegId) (s : State) : Result := done (s.setReg x s.dt)

/-- LD Vx, K (R194): the lowest pressed key, or HOLD with no state written (R195, R224). -/
def execLdVxK (x : RegId) (s : State) : Result :=
  match s.lowestKey with
  | some k => done (s.setReg x (BitVec.ofNat 8 k.val))
  | none => hold s

/-- LD DT, Vx (R196). -/
def execLdDtVx (x : RegId) (s : State) : Result := done { s with dt := s.reg x }

/-- LD ST, Vx (R197). -/
def execLdStVx (x : RegId) (s : State) : Result := done { s with st := s.reg x }

end Sys2Proof.Machine
end

