-- ==== Sys2Proof/Machine/Step.lean ====
section
/-! DEFINITION. One cycle (R100): while `FAULT` is none, fetch, dispatch and execute; else no cycle (R106, R213). -/

namespace Sys2Proof.Machine

/-- One cycle (R100). A latched fault is answered again without change (R213); a fault of the fetch or of the dispatch
is raised (R72, R83); otherwise the operation runs, its own advance included (R103). -/
def step (s : State) : Host.Outcome State Fault Refusal :=
  match s.fault with
  | some f => .fault (.coreFaulted f)
  | none =>
    match s.fetch with
    | .error f => raise f s
    | .ok i => exec i s

/-- `s` with the instruction of the table's bits `w` stored at `pc`, high byte first (R53, R72), where the next cycle
fetches it: it stands for a program loaded from outside the machine (log 6, log 19). -/
def State.withFetchWord (s : State) (nbits w : Nat) : State := s.storeBytes s.pc.toNat (tableWordBytes nbits w)

end Sys2Proof.Machine
end

