-- ==== Sys2Proof/Machine/Boot.lean ====
section
/-! DEFINITION. The start of a session (R240, R241): reset, then the ROM load (R243). It is the only reset there is. -/

namespace Sys2Proof.Machine

/-- The largest ROM that can be loaded in full: `MEM_SIZE - 0x200` (R243, D19). -/
def romCapacity : Nat := Config.memSize - Config.romBase

/-- Start a session with a ROM: `none` is a file that cannot be opened or read, and `some` its bytes. RomLoadFailure
starts no session and loads nothing; else every piece of state is at its reset value and the ROM is at 0x200 (R243). -/
def boot (rom : Option (List Byte)) : Result :=
  match rom with
  | none => .fault .romLoadFailure
  | some bytes =>
    if romCapacity < bytes.length then .fault .romLoadFailure
    else .next (State.reset.storeBytes Config.romBase bytes)

end Sys2Proof.Machine
end

