-- ==== Sys2Proof/Machine/HostPort.lean ====
section
/-! DEFINITION. What the host does between steps, and what it reads (R225 to R229). None of it is part of `step`
(log 7). -/

namespace Sys2Proof.Machine

/-- Keypad update (R229): new values of some of the 16 flags, applied as one atomic snapshot (R31). -/
def State.updateKeys (up : Vector (Option Bool) 16) (s : State) : State :=
  { s with key := Vector.ofFn fun k => (up.get k).getD (s.key.get k) }

/-- A step request with the keypad snapshot the cycle reads, `Key <- keys` (R100, R225). A latched fault is answered
without change. -/
def stepWith (keys : Vector Bool 16) (s : State) : Result := step { s with key := keys }

/-- `if b > 0: b - 1`, the stop at zero (R228). -/
def tickDown (b : Byte) : Byte := if b = 0 then 0 else b - 1

/-- One timer tick, between steps (R228; log 17). -/
def State.timerTick (s : State) : State := { s with dt := tickDown s.dt, st := tickDown s.st }

/-- The host's acknowledge of the draw flag: `DRAWN <- 0` and nothing else (R227). -/
def State.ackDraw (s : State) : State := { s with drawn := false }

/-- Display read of one cell (R225). -/
def State.readCell (s : State) (idx : CellIdx) : Byte := s.screen.get idx

/-- Timer read (R225). -/
def State.readTimers (s : State) : Byte × Byte := (s.dt, s.st)

/-- The numeric code of a latched fault (R210). -/
def FaultInfo.code : FaultInfo → Nat
  | .decodeOutOfBounds _ => 1
  | .unknownOpcode _ _ _ => 2
  | .stackOverflow _ => 3
  | .stackUnderflow _ => 4
  | .memoryOutOfBounds _ _ => 5
  | .keyOutOfRange _ _ => 6

/-- Fault read: the code, 0 when no fault is latched (R210, R225). -/
def State.faultCode (s : State) : Nat :=
  match s.fault with
  | none => 0
  | some f => f.code

/-- The code of a fault the host is answered (R210): the latched one's, or 7 for a session that did not start. -/
def Fault.code : Fault → Nat
  | .coreFaulted f => f.code
  | .romLoadFailure => 7

/-- What the host may do between two steps that changes the state (R225). -/
inductive HostAction where
  | keypadUpdate (up : Vector (Option Bool) 16)
  | timerTick
  | ackDraw
deriving DecidableEq, Repr

/-- The effect of a host action. -/
def hostAct : HostAction → State → State
  | .keypadUpdate up, s => s.updateKeys up
  | .timerTick, s => s.timerTick
  | .ackDraw, s => s.ackDraw

/-- The outcome of a cycle, as reported to the host (R106). -/
inductive CycleOutcome where
  | executed
  | waiting
  | faulted (f : FaultInfo)
deriving DecidableEq, Repr

/-- The next instruction is LD Vx, K and no key is pressed (R106, R224). -/
def State.waitsForKey (s : State) : Bool :=
  match s.fetch with
  | .ok (.ldVxK _) => s.lowestKey.isNone
  | _ => false

/-- The outcome of the cycle that `step s` is (R106); none if the step stopped in a way the spec does not have, which
no state does. -/
def cycleOutcome (s : State) : Option CycleOutcome :=
  match step s with
  | .fault (.coreFaulted f) => some (.faulted f)
  | .next t =>
    match t.fault with
    | some f => some (.faulted f)
    | none => some (if s.waitsForKey then .waiting else .executed)
  | .fault .romLoadFailure => none
  | .refused _ => none

end Sys2Proof.Machine
end

