-- ==== Sys2Proof/Safety.lean ====
section
/-! DEFINITION. The terms claims are stated in: the invariants of the machine, and what an instruction leaves alone. -/

namespace Sys2Proof.Machine

/-- What holds of every state a session reaches: the memory is in canonical form, and every display cell holds 0 or 1
(R33). -/
structure State.Inv (s : State) : Prop where
  mem_wf : s.mem.wf
  cells : ∀ idx : CellIdx, s.screen.get idx = 0 ∨ s.screen.get idx = 1

/-- The bounds R105 reasons with: `pc` is at most the largest jump target, and every stack entry is an address a
CALL was fetched from. -/
structure State.PcBounded (s : State) : Prop where
  pc_le : s.pc.toNat ≤ 0x10FE
  stack_le : ∀ k : Fin 16, (s.stack.get k).toNat + 2 ≤ Config.memSize

/-- The parts of the state (R39), and the model's own counter. -/
inductive Part where
  | v | i | pc | sp | stack | dt | st | key | screen | drawn | fault | mem | rndDraws
deriving DecidableEq, Repr

/-- A part is the same in two states. Memory: every byte reads the same. -/
def Part.same (s t : State) : Part → Prop
  | .v => ∀ r : RegId, t.reg r = s.reg r
  | .i => t.i = s.i
  | .pc => t.pc = s.pc
  | .sp => t.sp = s.sp
  | .stack => ∀ k : Fin 16, t.stack.get k = s.stack.get k
  | .dt => t.dt = s.dt
  | .st => t.st = s.st
  | .key => ∀ k : KeyId, t.pressed k = s.pressed k
  | .screen => ∀ idx : CellIdx, t.readCell idx = s.readCell idx
  | .drawn => t.drawn = s.drawn
  | .fault => t.fault = s.fault
  | .mem => ∀ a : Nat, t.readMem a = s.readMem a
  | .rndDraws => t.rndDraws = s.rndDraws

/-- Everything but the parts of `ps` is the same in `t` as in `s`: the frame of an instruction. -/
def onlyChanges (ps : List Part) (s t : State) : Prop := ∀ p : Part, p ∉ ps → p.same s t

/-- All V registers but those of `rs` are the same in `t` as in `s`. -/
def regsSameExcept (rs : List RegId) (s t : State) : Prop := ∀ r : RegId, r ∉ rs → t.reg r = s.reg r

/-- The program counter of `t` is `k` bytes past that of `s`, modulo 65536 (R103 to R105). -/
def pcMoves (k : Nat) (s t : State) : Prop := t.pc.toNat = (s.pc.toNat + k) % 65536

/-- The cell `idx` is under a set bit of the sprite of `h` rows at `I`, drawn with its origin at `(vx, vy)`: row `r`,
column `j`, bit `7 - j` of the byte at `I + r`, each coordinate wrapped (R182, R183). -/
def spriteCovers (s : State) (vx vy : Byte) (h : Nat) (idx : CellIdx) : Prop :=
  ∃ r < h, ∃ j < 8, (s.readMem (s.i.toNat + r)).toNat / 2 ^ (7 - j) % 2 = 1 ∧
    idx.val = (vx.toNat + j) % 64 + (vy.toNat + r) % 32 * 64

/-- The state a raised fault leaves: the latch written and nothing else (R213). -/
def State.latched (s : State) (f : FaultInfo) : State := { s with fault := some f }

/-- All bytes of a data access of `n` bytes from `I` exist (R57). -/
def dataFits (n : Nat) (s : State) : Prop := n = 0 ∨ s.i.toNat + n ≤ 4096

end Sys2Proof.Machine
end

