-- ==== Sys2Proof/Certificates/Slice0/Obligations.lean ====
section
/-! DEFINITION. The statements for the provers. Each cites the rule of spec/ it formalises; results are written in
naturals and integers, as the spec's pseudocode is (R8), and not with the model's own operations. -/

open Sys2Proof Sys2Proof.Machine

/-! ### Reset and boot -/

/-- R39: the reset value of every piece of state (zero where D9 says so; log 3), the font at 0x000, 0 above it. The
model's own counter of draws is not in it. -/
def Obligations.ResetHoldsTheTableOfR39 : Prop :=
  (∀ r : RegId, State.reset.reg r = 0) ∧ State.reset.i = 0 ∧ State.reset.pc = 0x200 ∧ State.reset.sp.val = 0 ∧
  (∀ k : Fin 16, State.reset.stack.get k = 0) ∧ State.reset.dt = 0 ∧ State.reset.st = 0 ∧
  (∀ k : KeyId, State.reset.pressed k = false) ∧ (∀ idx : CellIdx, State.reset.readCell idx = 0) ∧
  State.reset.drawn = false ∧ State.reset.fault = none ∧
  (∀ a < 80, State.reset.readMem a = font.getD a 0) ∧
  (∀ a, 80 ≤ a → a < 4096 → State.reset.readMem a = 0)

/-- R243: a ROM that fits fills 0x200 up and nothing else differs from reset; one that does not fit, or cannot be
read, is a RomLoadFailure and no session starts. -/
def Obligations.BootLoadsTheRomOrStartsNoSession : Prop :=
  (∀ bytes : List Byte, bytes.length ≤ 3584 →
    ∃ t, boot (some bytes) = .next t ∧
      (∀ k < bytes.length, t.readMem (0x200 + k) = bytes.getD k 0) ∧
      (∀ a, a < 0x200 ∨ 0x200 + bytes.length ≤ a → t.readMem a = State.reset.readMem a) ∧
      onlyChanges [.mem] State.reset t) ∧
  (∀ bytes : List Byte, 3584 < bytes.length → boot (some bytes) = .fault .romLoadFailure) ∧
  boot none = .fault .romLoadFailure

/-! ### Decoding and encoding -/

/-- Decode and encode agree: the two stored bytes of any well-formed instruction decode to it, whatever bytes follow,
and the following bytes are what is left (R53, R70, R80, R86). -/
def Obligations.DecodeOfEncodeIsTheInstruction : Prop :=
  ∀ (i : Instr) (rest : List Byte), i.wf = true → decodeBytes (encodeBytes i ++ rest) = .ok (i, rest)

/-- The other direction: a word whose top nibble is not 0 and that decodes is the encoding of what it decodes to, so no
bit of it is dropped (R74, R75, R77, R80). A word with top nibble 0 decodes as `0x00KK` (R76). -/
def Obligations.EncodeOfDecodeIsTheWord : Prop :=
  (∀ (hi lo : Byte) (i : Instr), 16 ≤ hi.toNat → decode hi lo = .ok i → encodeBytes i = [hi, lo]) ∧
  (∀ hi lo : Byte, hi.toNat < 16 → decode hi lo = decode 0 lo)

/-- R73 to R77: the class and the operand of every pair of bytes, by top nibble. -/
def Obligations.CanonicalisationByTopNibble : Prop :=
  ∀ hi lo : Byte,
    let n := hi.toNat / 16
    let low := hi.toNat % 16
    let cls := (canonicalise hi lo).opcodeClass.toNat
    let opd := (canonicalise hi lo).operand.toNat
    (n = 5 ∨ n = 8 ∨ n = 9 → cls = n * 16 + lo.toNat % 16 ∧ opd = low * 16 + lo.toNat / 16) ∧
    (n = 0xE ∨ n = 0xF → cls = n * 256 + lo.toNat ∧ opd = low) ∧
    (n = 0 → cls = lo.toNat ∧ opd = 0) ∧
    (n = 1 ∨ n = 2 ∨ n = 3 ∨ n = 4 ∨ n = 6 ∨ n = 7 ∨ n = 0xA ∨ n = 0xB ∨ n = 0xC ∨ n = 0xD →
      cls = n ∧ opd = low * 256 + lo.toNat)

/-- R86 with R80: the primary encoding of each of the 35 rows, written as a number from the row's match and fields,
decodes to the row's operation with those fields, at every value of every field. The discarded nibble `z` of the
system words is any. -/
def Obligations.EveryPrimaryEncodingDecodes : Prop :=
  (∀ z : Fin 16,
    decodeWord (BitVec.ofNat 16 (0x00E0 + z.val * 256)) = .ok .cls ∧
    decodeWord (BitVec.ofNat 16 (0x00EE + z.val * 256)) = .ok .ret ∧
    decodeWord (BitVec.ofNat 16 (0x0000 + z.val * 256)) = .ok .nop) ∧
  (∀ addr : Word, addr.toNat < 0x1000 →
    decodeWord (BitVec.ofNat 16 (0x1000 + addr.toNat)) = .ok (.jp addr) ∧
    decodeWord (BitVec.ofNat 16 (0x2000 + addr.toNat)) = .ok (.call addr) ∧
    decodeWord (BitVec.ofNat 16 (0xA000 + addr.toNat)) = .ok (.ldI addr) ∧
    decodeWord (BitVec.ofNat 16 (0xB000 + addr.toNat)) = .ok (.jpV0 addr)) ∧
  (∀ (x : RegId) (kk : Byte),
    decodeWord (BitVec.ofNat 16 (0x3000 + x.val * 256 + kk.toNat)) = .ok (.seByte x kk) ∧
    decodeWord (BitVec.ofNat 16 (0x4000 + x.val * 256 + kk.toNat)) = .ok (.sneByte x kk) ∧
    decodeWord (BitVec.ofNat 16 (0x6000 + x.val * 256 + kk.toNat)) = .ok (.ldByte x kk) ∧
    decodeWord (BitVec.ofNat 16 (0x7000 + x.val * 256 + kk.toNat)) = .ok (.addByte x kk) ∧
    decodeWord (BitVec.ofNat 16 (0xC000 + x.val * 256 + kk.toNat)) = .ok (.rnd x kk)) ∧
  (∀ x y : RegId,
    decodeWord (BitVec.ofNat 16 (0x5000 + x.val * 256 + y.val * 16)) = .ok (.seReg x y) ∧
    decodeWord (BitVec.ofNat 16 (0x8000 + x.val * 256 + y.val * 16)) = .ok (.ldReg x y) ∧
    decodeWord (BitVec.ofNat 16 (0x8001 + x.val * 256 + y.val * 16)) = .ok (.or x y) ∧
    decodeWord (BitVec.ofNat 16 (0x8002 + x.val * 256 + y.val * 16)) = .ok (.and x y) ∧
    decodeWord (BitVec.ofNat 16 (0x8003 + x.val * 256 + y.val * 16)) = .ok (.xor x y) ∧
    decodeWord (BitVec.ofNat 16 (0x8004 + x.val * 256 + y.val * 16)) = .ok (.addReg x y) ∧
    decodeWord (BitVec.ofNat 16 (0x8005 + x.val * 256 + y.val * 16)) = .ok (.sub x y) ∧
    decodeWord (BitVec.ofNat 16 (0x8006 + x.val * 256 + y.val * 16)) = .ok (.shr x y) ∧
    decodeWord (BitVec.ofNat 16 (0x8007 + x.val * 256 + y.val * 16)) = .ok (.subn x y) ∧
    decodeWord (BitVec.ofNat 16 (0x800E + x.val * 256 + y.val * 16)) = .ok (.shl x y) ∧
    decodeWord (BitVec.ofNat 16 (0x9000 + x.val * 256 + y.val * 16)) = .ok (.sneReg x y)) ∧
  (∀ (x y : RegId) (h : Nat), h < 16 →
    decodeWord (BitVec.ofNat 16 (0xD000 + x.val * 256 + y.val * 16 + h)) = .ok (.drw x y h)) ∧
  (∀ x : RegId,
    decodeWord (BitVec.ofNat 16 (0xE09E + x.val * 256)) = .ok (.skp x) ∧
    decodeWord (BitVec.ofNat 16 (0xE0A1 + x.val * 256)) = .ok (.sknp x) ∧
    decodeWord (BitVec.ofNat 16 (0xF007 + x.val * 256)) = .ok (.ldVxDt x) ∧
    decodeWord (BitVec.ofNat 16 (0xF00A + x.val * 256)) = .ok (.ldVxK x) ∧
    decodeWord (BitVec.ofNat 16 (0xF015 + x.val * 256)) = .ok (.ldDtVx x) ∧
    decodeWord (BitVec.ofNat 16 (0xF018 + x.val * 256)) = .ok (.ldStVx x) ∧
    decodeWord (BitVec.ofNat 16 (0xF01E + x.val * 256)) = .ok (.addI x) ∧
    decodeWord (BitVec.ofNat 16 (0xF029 + x.val * 256)) = .ok (.ldF x) ∧
    decodeWord (BitVec.ofNat 16 (0xF033 + x.val * 256)) = .ok (.ldB x) ∧
    decodeWord (BitVec.ofNat 16 (0xF055 + x.val * 256)) = .ok (.ldMemVx x) ∧
    decodeWord (BitVec.ofNat 16 (0xF065 + x.val * 256)) = .ok (.ldVxMem x))

/-- R88: the 21 alias bytes of a top-nibble-0 word, and the operation with operand 0 each runs, whatever the discarded
nibble. -/
def Obligations.AliasWordsRunWithOperandZero : Prop :=
  ∀ hi : Byte, hi.toNat < 16 →
    ∀ p ∈ ([(0x01, .jp 0), (0x02, .call 0), (0x03, .seByte 0 0), (0x04, .sneByte 0 0), (0x06, .ldByte 0 0),
      (0x07, .addByte 0 0), (0x0A, .ldI 0), (0x0B, .jpV0 0), (0x0C, .rnd 0 0), (0x0D, .drw 0 0 0), (0x50, .seReg 0 0),
      (0x80, .ldReg 0 0), (0x81, .or 0 0), (0x82, .and 0 0), (0x83, .xor 0 0), (0x84, .addReg 0 0), (0x85, .sub 0 0),
      (0x86, .shr 0 0), (0x87, .subn 0 0), (0x8E, .shl 0 0), (0x90, .sneReg 0 0)] : List (Byte × Instr)),
      decode hi p.1 = .ok p.2

/-- R89: exactly these words are unknown, and the error names the class. -/
def Obligations.UnknownWordsAreThoseOfR89 : Prop :=
  ∀ hi lo : Byte,
    let n := hi.toNat / 16
    let k := lo.toNat % 16
    decode hi lo = .error (.unknownOpcode (canonicalise hi lo).opcodeClass) ↔
      (n = 0 ∧ lo.toNat ∉ [0x00, 0x01, 0x02, 0x03, 0x04, 0x06, 0x07, 0x0A, 0x0B, 0x0C, 0x0D, 0x50, 0x80, 0x81, 0x82,
        0x83, 0x84, 0x85, 0x86, 0x87, 0x8E, 0x90, 0xE0, 0xEE]) ∨
      (n = 5 ∧ k ≠ 0) ∨
      (n = 8 ∧ k ∈ [8, 9, 0xA, 0xB, 0xC, 0xD, 0xF]) ∨
      (n = 9 ∧ k ≠ 0) ∨
      (n = 0xE ∧ lo.toNat ∉ [0x9E, 0xA1]) ∨
      (n = 0xF ∧ lo.toNat ∉ [0x07, 0x0A, 0x15, 0x18, 0x1E, 0x29, 0x33, 0x55, 0x65])

/-- Words written out bit by bit from R86, one of each format and each family (sanity). -/
def Obligations.WrittenOutWordsDecode : Prop :=
  decodeWord 0b0000010111100000 = .ok .cls ∧
  decodeWord 0b0001001000110100 = .ok (.jp 0x234) ∧
  decodeWord 0b0011101001111111 = .ok (.seByte 0xA 0x7F) ∧
  decodeWord 0b1000101010110100 = .ok (.addReg 0xA 0xB) ∧
  decodeWord 0b1101101010111100 = .ok (.drw 0xA 0xB 12) ∧
  decodeWord 0b1110010110011110 = .ok (.skp 5) ∧
  decodeWord 0b1111000100101001 = .ok (.ldF 1) ∧
  decodeWord 0b1111101001100101 = .ok (.ldVxMem 0xA) ∧
  decodeWord 0b0000000100100011 = .error (.unknownOpcode 0x23)

/-! ### The cycle, the faults, the machine as a whole -/

/-- R100: with no fault latched, when the two bytes at `pc` decode to `i`, high byte at the lower address (R53), one
step is `i`'s operation, whose advance is its own. -/
def Obligations.StepRunsTheInstructionAtPc : Prop :=
  ∀ (s : State) (i : Instr), s.fault = none → s.pc.toNat + 1 < 4096 →
    decode (s.readMem s.pc.toNat) (s.readMem (s.pc.toNat + 1)) = .ok i → step s = exec i s

/-- R72: the two bytes at `pc` and `pc + 1` are read when both exist, and else the fetch raises. A class with no key records
`pc`, the word and the class (the fault of R83). Nothing but the latch changes. -/
def Obligations.FetchAndDispatchFaults : Prop :=
  ∀ s : State, s.fault = none →
    (s.pc.toNat + 1 < 4096 → s.fetchBytes = .ok (s.readMem s.pc.toNat, s.readMem (s.pc.toNat + 1))) ∧
    (4096 ≤ s.pc.toNat + 1 → step s = .next (s.latched (.decodeOutOfBounds s.pc))) ∧
    (s.pc.toNat + 1 < 4096 → ∀ c : Word,
      decode (s.readMem s.pc.toNat) (s.readMem (s.pc.toNat + 1)) = .error (.unknownOpcode c) →
      ∃ w : Word, w.toNat = (s.readMem s.pc.toNat).toNat * 256 + (s.readMem (s.pc.toNat + 1)).toNat ∧
        c = (canonicalise (s.readMem s.pc.toNat) (s.readMem (s.pc.toNat + 1))).opcodeClass ∧
        step s = .next (s.latched (.unknownOpcode s.pc w c)))

/-- R211 and R213, over every step: a latched fault is answered again and there is no next state; a step that latches a
fault changes nothing else; and no host action clears the latch. -/
def Obligations.FaultsArePreciseAndSticky : Prop :=
  ∀ s : State,
    (∀ f, s.fault = some f → step s = .fault (.coreFaulted f)) ∧
    (∀ t f, step s = .next t → t.fault = some f → t = s.latched f) ∧
    (∀ a : HostAction, (hostAct a s).fault = s.fault)

/-- R106: every cycle has one of the three outcomes. With no fault latched the step answers a next state, and the outcome
reported is EXECUTED with no fault latched, WAITING with the state unchanged, or FAULTED with only the latch written.
WAITING is reported exactly at an LD Vx, K with no key pressed. With a fault latched, FAULTED is reported again. -/
def Obligations.EveryCycleHasOneOfThreeOutcomes : Prop :=
  ∀ s : State,
    (s.fault = none → ∃ t, step s = .next t ∧
      ((cycleOutcome s = some .executed ∧ t.fault = none) ∨
       (cycleOutcome s = some .waiting ∧ t = s) ∨
       (∃ f, cycleOutcome s = some (.faulted f) ∧ t = s.latched f))) ∧
    (s.fault = none →
      (cycleOutcome s = some .waiting ↔
        (∃ x, s.fetch = .ok (.ldVxK x)) ∧ ∀ k : KeyId, s.pressed k = false)) ∧
    (∀ f, s.fault = some f → cycleOutcome s = some (.faulted f))

/-- Every step keeps the invariant: canonical memory (the model's representation, log 5), and every display cell 0 or 1
(R33). -/
def Obligations.StepKeepsTheInvariant : Prop :=
  ∀ s t : State, s.Inv → step s = .next t → t.Inv

/-- Every step keeps the bounds R105 reasons with: `pc` at most 0x10FE, every stack entry the address of a fetched
CALL. -/
def Obligations.StepKeepsThePcBound : Prop :=
  ∀ s t : State, s.PcBounded → step s = .next t → t.PcBounded

/-- Reset, every booted session and every host action meet both invariants. That the host's actions change neither
memory, display, `pc` nor stack is R225 and R227 to R229; that they are functions beside `step` is the model's choice
(log 7), that memory is a list in canonical form is its representation (log 5), and that a display of zeros and a stack
of zeros follow reset is D9 of the spec (log 3). -/
def Obligations.SessionsStartInTheInvariants : Prop :=
  State.reset.Inv ∧ State.reset.PcBounded ∧
  (∀ (rom : Option (List Byte)) (t : State), boot rom = .next t → t.Inv ∧ t.PcBounded) ∧
  (∀ (a : HostAction) (s : State), (s.Inv → (hostAct a s).Inv) ∧ (s.PcBounded → (hostAct a s).PcBounded))

/-- Memories in canonical form that read alike everywhere are the same data (log 5: the model's representation). -/
def Obligations.CanonicalMemoriesThatReadAlikeAreEqual : Prop :=
  ∀ m m' : Memory, m.wf → m'.wf → (∀ a, a < 4096 → m.read a = m'.read a) → m = m'

/-- R55, R22: over every instruction, memory is written by LD B and LD [I], Vx alone. -/
def Obligations.OnlyLdBAndLdMemWriteMemory : Prop :=
  ∀ (i : Instr) (s t : State), exec i s = .next t → (∃ a, t.readMem a ≠ s.readMem a) →
    ∃ x, i = .ldB x ∨ i = .ldMemVx x

/-- R33 and R34, over every instruction: CLS and DRW alone write the display; a completed CLS or DRW sets `DRAWN`, no
other instruction changes it, and the host's acknowledge clears it. -/
def Obligations.DisplayAndDrawFlagBelongToClsAndDrw : Prop :=
  (∀ (i : Instr) (s t : State), exec i s = .next t → (∃ idx, t.readCell idx ≠ s.readCell idx) →
    i = .cls ∨ ∃ x y h, i = .drw x y h) ∧
  (∀ (i : Instr) (s t : State), s.fault = none → exec i s = .next t →
    ((i = .cls ∨ ∃ x y h, i = .drw x y h) ∧ t.fault = none → t.drawn = true) ∧
    (¬ ((i = .cls ∨ ∃ x y h, i = .drw x y h) ∧ t.fault = none) → t.drawn = s.drawn)) ∧
  (∀ s : State, s.ackDraw.drawn = false)

/-- R24, R26, R27, R28, R29, R30, R221, R146, over every instruction: who writes `I`, the stack and `SP`, the timers and
the keypad, and that RND draws one byte and no other instruction draws any. -/
def Obligations.SpecialStateHasOnlyItsWriters : Prop :=
  ∀ (i : Instr) (s t : State), exec i s = .next t →
    (t.i ≠ s.i → (∃ a, i = .ldI a) ∨ (∃ x, i = .addI x) ∨ ∃ x, i = .ldF x) ∧
    (t.sp ≠ s.sp → (∃ a, i = .call a) ∨ i = .ret) ∧
    ((∃ k, t.stack.get k ≠ s.stack.get k) → ∃ a, i = .call a) ∧
    (t.dt ≠ s.dt → ∃ x, i = .ldDtVx x) ∧
    (t.st ≠ s.st → ∃ x, i = .ldStVx x) ∧
    (∀ k : KeyId, t.pressed k = s.pressed k) ∧
    (t.rndDraws = s.rndDraws + 1 ∧ (∃ x kk, i = .rnd x kk) ∨ t.rndDraws = s.rndDraws ∧ ¬ ∃ x kk, i = .rnd x kk)

/-! ### Control flow -/

/-- R110. -/
def Obligations.NopOnlyAdvances : Prop :=
  ∀ s : State, ∃ t, exec .nop s = .next t ∧ pcMoves 2 s t ∧ onlyChanges [.pc] s t

/-- R111 and R113 (with the advance suppressed, R103, D1): `pc` is the target, the sum of `V0` and the address modulo 65536
for JP V0; nothing else changes. -/
def Obligations.JumpsSetOnlyPc : Prop :=
  ∀ (addr : Word) (s : State),
    (∃ t, exec (.jp addr) s = .next t ∧ t.pc = addr ∧ onlyChanges [.pc] s t) ∧
    (∃ t, exec (.jpV0 addr) s = .next t ∧ t.pc.toNat = ((s.reg 0).toNat + addr.toNat) % 65536 ∧
      onlyChanges [.pc] s t)

/-- R112: the CALL's own address is pushed at `stack[SP]`, `SP` counts up, `pc` is the target; StackOverflow at `SP == 16`
with no state changed. -/
def Obligations.CallPushesItsOwnAddress : Prop :=
  ∀ (addr : Word) (s : State),
    (s.sp.val < 16 → ∃ t, exec (.call addr) s = .next t ∧ t.pc = addr ∧ t.sp.val = s.sp.val + 1 ∧
      (∀ k : Fin 16, t.stack.get k = if k.val = s.sp.val then s.pc else s.stack.get k) ∧
      onlyChanges [.pc, .sp, .stack] s t) ∧
    (s.sp.val = 16 → exec (.call addr) s = .next (s.latched (.stackOverflow s.pc)))

/-- R116: `pc` is the top entry, advanced by 2, `SP` counts down, the stack keeps its entries (R27); StackUnderflow at
`SP == 0` with no state changed. -/
def Obligations.RetResumesAfterTheCall : Prop :=
  ∀ s : State,
    (∀ k : Fin 16, s.sp.val = k.val + 1 → ∃ t, exec .ret s = .next t ∧
      t.pc.toNat = ((s.stack.get k).toNat + 2) % 65536 ∧ t.sp.val = k.val ∧ onlyChanges [.pc, .sp] s t) ∧
    (s.sp.val = 0 → exec .ret s = .next (s.latched (.stackUnderflow s.pc)))

/-- The round trip of R116: two calls followed by two returns come back in reverse order, each past its CALL. -/
def Obligations.CallsReturnInReverseOrder : Prop :=
  ∀ (a b : Word) (s : State), s.sp.val < 15 →
    ∃ t₁ t₂ t₃ t₄, exec (.call a) s = .next t₁ ∧ exec (.call b) t₁ = .next t₂ ∧ exec .ret t₂ = .next t₃ ∧
      exec .ret t₃ = .next t₄ ∧ t₃.sp = t₁.sp ∧ pcMoves 2 t₁ t₃ ∧ t₄.sp = s.sp ∧ pcMoves 2 s t₄

/-- R117 to R120 with R104: a taken skip moves `pc` by 4, an untaken one by 2, and nothing else changes. -/
def Obligations.RegisterSkipsMovePcByTwoOrFour : Prop :=
  ∀ (x y : RegId) (kk : Byte) (s : State),
    (∃ t, exec (.seByte x kk) s = .next t ∧ pcMoves (if s.reg x = kk then 4 else 2) s t ∧ onlyChanges [.pc] s t) ∧
    (∃ t, exec (.sneByte x kk) s = .next t ∧ pcMoves (if s.reg x = kk then 2 else 4) s t ∧ onlyChanges [.pc] s t) ∧
    (∃ t, exec (.seReg x y) s = .next t ∧ pcMoves (if s.reg x = s.reg y then 4 else 2) s t ∧ onlyChanges [.pc] s t) ∧
    (∃ t, exec (.sneReg x y) s = .next t ∧ pcMoves (if s.reg x = s.reg y then 2 else 4) s t ∧ onlyChanges [.pc] s t)

/-! ### Registers and arithmetic -/

/-- R130, R133 to R136: the destination takes the byte, the source, or the bitwise OR, AND or XOR, and `VF` only when it
is the destination. -/
def Obligations.LoadsAndLogicWriteTheDestinationAlone : Prop :=
  ∀ (x y : RegId) (kk : Byte) (s : State),
    (∃ t, exec (.ldByte x kk) s = .next t ∧ t.reg x = kk ∧
      regsSameExcept [x] s t ∧ pcMoves 2 s t ∧ onlyChanges [.v, .pc] s t) ∧
    (∃ t, exec (.ldReg x y) s = .next t ∧ t.reg x = s.reg y ∧
      regsSameExcept [x] s t ∧ pcMoves 2 s t ∧ onlyChanges [.v, .pc] s t) ∧
    (∃ t, exec (.or x y) s = .next t ∧
      (∀ b < 8, (t.reg x).getLsbD b = ((s.reg x).getLsbD b || (s.reg y).getLsbD b)) ∧
      regsSameExcept [x] s t ∧ pcMoves 2 s t ∧ onlyChanges [.v, .pc] s t) ∧
    (∃ t, exec (.and x y) s = .next t ∧
      (∀ b < 8, (t.reg x).getLsbD b = ((s.reg x).getLsbD b && (s.reg y).getLsbD b)) ∧
      regsSameExcept [x] s t ∧ pcMoves 2 s t ∧ onlyChanges [.v, .pc] s t) ∧
    (∃ t, exec (.xor x y) s = .next t ∧
      (∀ b < 8, (t.reg x).getLsbD b = ((s.reg x).getLsbD b != (s.reg y).getLsbD b)) ∧
      regsSameExcept [x] s t ∧ pcMoves 2 s t ∧ onlyChanges [.v, .pc] s t)

/-- R131: the sum modulo 256, and no carry anywhere. -/
def Obligations.AddByteWrapsWithNoFlag : Prop :=
  ∀ (x : RegId) (kk : Byte) (s : State), ∃ t, exec (.addByte x kk) s = .next t ∧
    (t.reg x).toNat = ((s.reg x).toNat + kk.toNat) % 256 ∧
    regsSameExcept [x] s t ∧ pcMoves 2 s t ∧ onlyChanges [.v, .pc] s t

/-- R138: the sum of the old values modulo 256, and the carry in `VF`, written last, so that `x = 0xF` ends as the
carry. -/
def Obligations.AddRegWritesTheCarryLast : Prop :=
  ∀ (x y : RegId) (s : State), ∃ t, exec (.addReg x y) s = .next t ∧
    (x ≠ 0xF → (t.reg x).toNat = ((s.reg x).toNat + (s.reg y).toNat) % 256) ∧
    (t.reg 0xF).toNat = (if 255 < (s.reg x).toNat + (s.reg y).toNat then 1 else 0) ∧
    regsSameExcept [x, 0xF] s t ∧ pcMoves 2 s t ∧ onlyChanges [.v, .pc] s t

/-- R140 and R142 (statement order by D2): the flag is 1 exactly when the minuend is strictly greater; then the
difference modulo 256 is formed from the registers as the flag write left
them, so an operand that is `VF` is the new flag. -/
def Obligations.SubtractionsWriteTheStrictFlagFirst : Prop :=
  ∀ (x y : RegId) (s : State),
    (let flag := if (s.reg y).toNat < (s.reg x).toNat then 1 else 0
     let vx := if x = 0xF then flag else (s.reg x).toNat
     let vy := if y = 0xF then flag else (s.reg y).toNat
     ∃ t, exec (.sub x y) s = .next t ∧
      ((t.reg x).toNat : Int) = ((vx : Int) - vy) % 256 ∧
      (x ≠ 0xF → (t.reg 0xF).toNat = flag) ∧
      regsSameExcept [x, 0xF] s t ∧ pcMoves 2 s t ∧ onlyChanges [.v, .pc] s t) ∧
    (let flag := if (s.reg x).toNat < (s.reg y).toNat then 1 else 0
     let vx := if x = 0xF then flag else (s.reg x).toNat
     let vy := if y = 0xF then flag else (s.reg y).toNat
     ∃ t, exec (.subn x y) s = .next t ∧
      ((t.reg x).toNat : Int) = ((vy : Int) - vx) % 256 ∧
      (x ≠ 0xF → (t.reg 0xF).toNat = flag) ∧
      regsSameExcept [x, 0xF] s t ∧ pcMoves 2 s t ∧ onlyChanges [.v, .pc] s t)

/-- R141 and R143 (statement order by D2): the bit shifted out goes to `VF` first; then the register as the flag write
left it is halved, or doubled modulo 256. `y` is not read: the result is the same for every `y`. -/
def Obligations.ShiftsWriteTheBitShiftedOutFirst : Prop :=
  ∀ (x y : RegId) (s : State),
    (let flag := (s.reg x).toNat % 2
     ∃ t, (∀ y' : RegId, exec (.shr x y') s = exec (.shr x y) s) ∧ exec (.shr x y) s = .next t ∧
      (t.reg x).toNat = (if x = 0xF then flag else (s.reg x).toNat) / 2 ∧
      (x ≠ 0xF → (t.reg 0xF).toNat = flag) ∧
      regsSameExcept [x, 0xF] s t ∧ pcMoves 2 s t ∧ onlyChanges [.v, .pc] s t) ∧
    (let flag := (s.reg x).toNat / 128
     ∃ t, (∀ y' : RegId, exec (.shl x y') s = exec (.shl x y) s) ∧ exec (.shl x y) s = .next t ∧
      (t.reg x).toNat = (if x = 0xF then flag else (s.reg x).toNat) * 2 % 256 ∧
      (x ≠ 0xF → (t.reg 0xF).toNat = flag) ∧
      regsSameExcept [x, 0xF] s t ∧ pcMoves 2 s t ∧ onlyChanges [.v, .pc] s t)

/-- R145: the AND of the byte and the byte drawn. The draw is the model's free value and the count of draws its own field
(log 2): the statement holds whatever the byte is, and for every value of the counter. -/
def Obligations.RndMasksTheByteDrawn : Prop :=
  ∀ (x : RegId) (kk : Byte) (s : State), ∃ t, exec (.rnd x kk) s = .next t ∧
    (∀ b < 8, (t.reg x).getLsbD b = (kk.getLsbD b && (Config.randomByte s.rndDraws).getLsbD b)) ∧
    t.rndDraws = s.rndDraws + 1 ∧
    regsSameExcept [x] s t ∧ pcMoves 2 s t ∧ onlyChanges [.v, .pc, .rndDraws] s t

/-! ### Index register and memory -/

/-- R160 to R162: `I` is the address, the 16-bit sum with `V[x]`, or `V[x] * 5`, and nothing else changes. -/
def Obligations.IndexRegisterResults : Prop :=
  ∀ (addr : Word) (x : RegId) (s : State),
    (∃ t, exec (.ldI addr) s = .next t ∧ t.i = addr ∧ pcMoves 2 s t ∧ onlyChanges [.i, .pc] s t) ∧
    (∃ t, exec (.addI x) s = .next t ∧ t.i.toNat = (s.i.toNat + (s.reg x).toNat) % 65536 ∧
      pcMoves 2 s t ∧ onlyChanges [.i, .pc] s t) ∧
    (∃ t, exec (.ldF x) s = .next t ∧ t.i.toNat = (s.reg x).toNat * 5 ∧
      pcMoves 2 s t ∧ onlyChanges [.i, .pc] s t)

/-- R163: the decimal digits of `V[x]` at `I`, `I+1`, `I+2` and no other byte; MemoryOutOfBounds with the lowest bad
address, and nothing written, when one of them does not exist. -/
def Obligations.LdBStoresTheDecimalDigits : Prop :=
  ∀ (x : RegId) (s : State), s.mem.wf →
    (s.i.toNat + 2 < 4096 → ∃ t, exec (.ldB x) s = .next t ∧
      (t.readMem s.i.toNat).toNat = (s.reg x).toNat / 100 ∧
      (t.readMem (s.i.toNat + 1)).toNat = (s.reg x).toNat / 10 % 10 ∧
      (t.readMem (s.i.toNat + 2)).toNat = (s.reg x).toNat % 10 ∧
      (∀ a, a < s.i.toNat ∨ s.i.toNat + 2 < a → t.readMem a = s.readMem a) ∧
      pcMoves 2 s t ∧ onlyChanges [.mem, .pc] s t) ∧
    (4096 ≤ s.i.toNat + 2 →
      exec (.ldB x) s = .next (s.latched (.memoryOutOfBounds s.pc (max s.i.toNat 4096))))

/-- R164: `V[k]` at `I + k` for each `k` up to `x`, no other byte, `I` unchanged; MemoryOutOfBounds as in R57. -/
def Obligations.LdMemStoresTheRegisters : Prop :=
  ∀ (x : RegId) (s : State), s.mem.wf →
    (s.i.toNat + x.val < 4096 → ∃ t, exec (.ldMemVx x) s = .next t ∧
      (∀ k : RegId, k ≤ x → t.readMem (s.i.toNat + k.val) = s.reg k) ∧
      (∀ a, a < s.i.toNat ∨ s.i.toNat + x.val < a → t.readMem a = s.readMem a) ∧
      pcMoves 2 s t ∧ onlyChanges [.mem, .pc] s t) ∧
    (4096 ≤ s.i.toNat + x.val →
      exec (.ldMemVx x) s = .next (s.latched (.memoryOutOfBounds s.pc (max s.i.toNat 4096))))

/-- R165: each register up to `x` takes the byte at `I + k`, the others keep their values, `I` and memory are unchanged;
MemoryOutOfBounds as in R57. -/
def Obligations.LdVxMemLoadsTheRegisters : Prop :=
  ∀ (x : RegId) (s : State),
    (s.i.toNat + x.val < 4096 → ∃ t, exec (.ldVxMem x) s = .next t ∧
      (∀ k : RegId, t.reg k = if k ≤ x then s.readMem (s.i.toNat + k.val) else s.reg k) ∧
      pcMoves 2 s t ∧ onlyChanges [.v, .pc] s t) ∧
    (4096 ≤ s.i.toNat + x.val →
      exec (.ldVxMem x) s = .next (s.latched (.memoryOutOfBounds s.pc (max s.i.toNat 4096))))

/-- From R63 and R53: bytes stored by LD [I], Vx are the bytes a fetch at that address reads, the lower address first. -/
def Obligations.StoredBytesAreTheBytesFetched : Prop :=
  ∀ (x : RegId) (s : State), s.mem.wf → 1 ≤ x.val → s.i.toNat + x.val < 4096 →
    ∃ t, exec (.ldMemVx x) s = .next t ∧ (t.setPc s.i).fetchBytes = .ok (s.reg 0, s.reg 1)

/-! ### Display -/

/-- R180: every cell 0, `DRAWN` set, and nothing else but the advance. -/
def Obligations.ClsClearsEveryCell : Prop :=
  ∀ s : State, ∃ t, exec .cls s = .next t ∧ (∀ idx : CellIdx, t.readCell idx = 0) ∧ t.drawn = true ∧
    pcMoves 2 s t ∧ onlyChanges [.screen, .drawn, .pc] s t

/-- R182 and R183: exactly the cells under a set bit of the sprite, each pixel wrapped, are XORed with 1; `VF` is 1 when
one of them was lit, else 0; `DRAWN` is set. The origin is the registers' values before `VF` is written, so `x = 0xF` and
`y = 0xF` are no exception. MemoryOutOfBounds, and nothing written, when a row does not exist. -/
def Obligations.DrwXorsTheSpriteAndReportsErasure : Prop :=
  ∀ (x y : RegId) (h : Nat) (s : State), h < 16 →
    (dataFits h s → ∃ t, exec (.drw x y h) s = .next t ∧
      (∀ idx : CellIdx, spriteCovers s (s.reg x) (s.reg y) h idx → t.readCell idx = s.readCell idx ^^^ 1) ∧
      (∀ idx : CellIdx, ¬ spriteCovers s (s.reg x) (s.reg y) h idx → t.readCell idx = s.readCell idx) ∧
      ((∃ idx : CellIdx, spriteCovers s (s.reg x) (s.reg y) h idx ∧ s.readCell idx = 1) → t.reg 0xF = 1) ∧
      ((¬ ∃ idx : CellIdx, spriteCovers s (s.reg x) (s.reg y) h idx ∧ s.readCell idx = 1) → t.reg 0xF = 0) ∧
      t.drawn = true ∧ regsSameExcept [0xF] s t ∧ pcMoves 2 s t ∧
      onlyChanges [.v, .screen, .drawn, .pc] s t) ∧
    (¬ dataFits h s →
      exec (.drw x y h) s = .next (s.latched (.memoryOutOfBounds s.pc (max s.i.toNat 4096))))

/-- R184: the same sprite drawn a second time at the same origin restores every cell. The second draw sets `VF` exactly when
a covered cell was dark before the first (R184's own words, "if the sprite has any set bit", leave out a sprite that lay
wholly on lit cells; log 20). -/
def Obligations.DrawingTwiceRestoresTheDisplay : Prop :=
  ∀ (x y x' y' : RegId) (h : Nat) (s t : State), h < 16 → s.Inv → dataFits h s →
    exec (.drw x y h) s = .next t → t.reg x' = s.reg x → t.reg y' = s.reg y →
    ∃ u, exec (.drw x' y' h) t = .next u ∧ (∀ idx : CellIdx, u.readCell idx = s.readCell idx) ∧
      (u.reg 0xF = 1 ↔ ∃ idx : CellIdx, spriteCovers s (s.reg x) (s.reg y) h idx ∧ s.readCell idx = 0)

/-! ### Keypad, timers, host -/

/-- R190 to R192 with R104: the key named by the value of `V[x]` decides the skip; a value above 0xF is KeyOutOfRange with
no state changed. -/
def Obligations.KeySkipsTestTheKeyNamedByVx : Prop :=
  ∀ (x : RegId) (s : State),
    (∀ k : KeyId, (s.reg x).toNat = k.val →
      (∃ t, exec (.skp x) s = .next t ∧ pcMoves (if s.pressed k = true then 4 else 2) s t ∧ onlyChanges [.pc] s t) ∧
      (∃ t, exec (.sknp x) s = .next t ∧ pcMoves (if s.pressed k = true then 2 else 4) s t ∧ onlyChanges [.pc] s t)) ∧
    (15 < (s.reg x).toNat →
      exec (.skp x) s = .next (s.latched (.keyOutOfRange s.pc (s.reg x))) ∧
      exec (.sknp x) s = .next (s.latched (.keyOutOfRange s.pc (s.reg x))))

/-- R193, R196, R197: the assignment each rule writes, and the frame. -/
def Obligations.TimerMovesCopyOneByte : Prop :=
  ∀ (x : RegId) (s : State),
    (∃ t, exec (.ldVxDt x) s = .next t ∧ t.reg x = s.dt ∧ regsSameExcept [x] s t ∧ pcMoves 2 s t ∧
      onlyChanges [.v, .pc] s t) ∧
    (∃ t, exec (.ldDtVx x) s = .next t ∧ t.dt = s.reg x ∧ pcMoves 2 s t ∧ onlyChanges [.dt, .pc] s t) ∧
    (∃ t, exec (.ldStVx x) s = .next t ∧ t.st = s.reg x ∧ pcMoves 2 s t ∧ onlyChanges [.st, .pc] s t)

/-- R194 and R195: the lowest pressed key goes to `V[x]`; with no key pressed the state is unchanged, `pc` included. -/
def Obligations.LdVxKTakesTheLowestKeyOrHolds : Prop :=
  ∀ (x : RegId) (s : State),
    (∀ k : KeyId, s.pressed k = true → (∀ j : KeyId, j < k → s.pressed j = false) →
      ∃ t, exec (.ldVxK x) s = .next t ∧ (t.reg x).toNat = k.val ∧ regsSameExcept [x] s t ∧ pcMoves 2 s t ∧
        onlyChanges [.v, .pc] s t) ∧
    ((∀ k : KeyId, s.pressed k = false) → exec (.ldVxK x) s = .next s)

/-- R227, R228, R229: what each host action changes between steps, and that it changes nothing else. R228 marks its
stop at zero as general knowledge (log 17); that the actions are functions beside `step` is the model's choice (log 7). -/
def Obligations.HostActionsChangeOnlyTheirOwnState : Prop :=
  ∀ s : State,
    ((hostAct .timerTick s).dt.toNat = s.dt.toNat - 1 ∧ (hostAct .timerTick s).st.toNat = s.st.toNat - 1 ∧
      onlyChanges [.dt, .st] s (hostAct .timerTick s)) ∧
    ((hostAct .ackDraw s).drawn = false ∧ onlyChanges [.drawn] s (hostAct .ackDraw s)) ∧
    (∀ up : Vector (Option Bool) 16,
      (∀ k : KeyId, (hostAct (.keypadUpdate up) s).pressed k = ((up.get k).getD (s.pressed k))) ∧
      onlyChanges [.key] s (hostAct (.keypadUpdate up) s))
end

