-- ==== Sys2Proof/Laws/Decode.lean ====
section
/-! SUPPORT. The decoder: the dispatch keys are distinct (R85), every decoded instruction is well formed (R81), and
words laid out as bytes come back. -/

namespace Sys2Proof

/-- The dispatch table has 35 rows, and their class keys are pairwise distinct (R84, R85). -/
theorem dispatchTable_keys_distinct :
    dispatchTable.length = 35 ∧ (dispatchTable.map Prod.fst).Pairwise (· ≠ ·) := by decide

theorem wordOfBytes_hiByte_loByte (w : Word) : wordOfBytes (hiByte w) (loByte w) = w := by
  apply BitVec.eq_of_getLsbD_eq
  intro k hk
  simp only [wordOfBytes, hiByte, loByte, BitVec.getLsbD_cast, BitVec.getLsbD_append, BitVec.getLsbD_extractLsb']
  by_cases h : k < 8
  · simp [h]
  · simp [h, show k - 8 < 8 by omega, show 8 + (k - 8) = k by omega]

theorem addrFits_addrField (opd : Word) : addrFits (addrField opd) = true := by
  have : (opd.extractLsb' 0 12).toNat < 2 ^ 12 := (opd.extractLsb' 0 12).isLt
  simp only [addrFits, addrField, BitVec.toNat_setWidth, decide_eq_true_eq]
  omega

theorem heightFits_heightField (opd : Word) : heightFits (heightField opd) = true := by
  exact decide_eq_true (opd.extractLsb' 0 4).isLt

/-- Every row of the table builds a well-formed instruction from any operand. -/
theorem dispatchTable_wf : ∀ row ∈ dispatchTable, ∀ opd : Word, (row.2 opd).wf = true := by
  intro row h opd
  simp only [dispatchTable, dispatchRows1, dispatchRows2, dispatchRows3, dispatchRows4, List.cons_append,
    List.nil_append, List.mem_cons, List.not_mem_nil, or_false] at h
  rcases h with h | h | h | h | h | h | h | h | h | h | h | h | h | h | h | h | h | h | h | h | h | h | h | h |
    h | h | h | h | h | h | h | h | h | h | h <;> subst h <;>
  first
  | rfl
  | exact addrFits_addrField opd
  | exact heightFits_heightField opd

/-- What the lookup finds is a row of the table with that key. -/
theorem lookupClass_some {c : Word} {build : Word → Instr} (h : lookupClass c = some build) :
    (c, build) ∈ dispatchTable := by
  rw [lookupClass, Option.map_eq_some_iff] at h
  obtain ⟨row, hrow, rfl⟩ := h
  have := List.find?_some hrow
  have hk : row.1 = c := by simpa using this
  have := List.mem_of_find?_eq_some hrow
  rw [← hk]; exact this

/-- Every decoded instruction is well formed. -/
theorem decode_wf {hi lo : Byte} {i : Instr} (h : decode hi lo = .ok i) : i.wf = true := by
  rw [decode] at h
  cases hl : lookupClass (canonicalise hi lo).opcodeClass with
  | none => simp only [hl] at h; cases h
  | some build =>
    simp only [hl] at h
    cases h
    exact dispatchTable_wf _ (lookupClass_some hl) _

/-! The parts of a word and the fields of an operand, as numbers. -/

theorem toNat_wordOfBytes (hi lo : Byte) : (wordOfBytes hi lo).toNat = hi.toNat * 256 + lo.toNat := by
  rw [wordOfBytes, BitVec.toNat_cast, BitVec.toNat_append, Nat.shiftLeft_eq, Nat.mul_comm,
    ← Nat.two_pow_add_eq_or_of_lt lo.isLt]

theorem toNat_hiByte (w : Word) : (hiByte w).toNat = w.toNat / 256 := by
  have := w.isLt
  simp only [hiByte, BitVec.extractLsb'_toNat, Nat.shiftRight_eq_div_pow]
  omega

theorem toNat_loByte (w : Word) : (loByte w).toNat = w.toNat % 256 := by
  simp [loByte, BitVec.extractLsb'_toNat]

theorem val_regField (opd : Word) (lo : Nat) : (regField opd lo).val = opd.toNat / 2 ^ lo % 16 := by
  simp [regField, Nat.shiftRight_eq_div_pow]

theorem toNat_addrField (opd : Word) : (addrField opd).toNat = opd.toNat % 4096 := by
  simp only [addrField, BitVec.toNat_setWidth, BitVec.extractLsb'_toNat, Nat.shiftRight_zero]
  omega

theorem toNat_byteField (opd : Word) : (byteField opd).toNat = opd.toNat % 256 := by
  simp [byteField, BitVec.extractLsb'_toNat]

theorem heightField_eq (opd : Word) : heightField opd = opd.toNat % 16 := by
  simp [heightField, BitVec.extractLsb'_toNat]

theorem toNat_formatA (n : BitVec 4) (addr : Word) :
    (formatA n addr).toNat = n.toNat * 4096 + addr.toNat % 4096 := by
  rw [formatA, BitVec.toNat_cast, BitVec.toNat_append, Nat.shiftLeft_eq, Nat.mul_comm,
    ← Nat.two_pow_add_eq_or_of_lt (addr.extractLsb' 0 12).isLt]
  simp [BitVec.extractLsb'_toNat, Nat.mul_comm]

theorem toNat_formatXB (n : BitVec 4) (x : RegId) (kk : Byte) :
    (formatXB n x kk).toNat = n.toNat * 4096 + x.val * 256 + kk.toNat := by
  rw [formatXB, BitVec.toNat_cast, BitVec.toNat_append, Nat.shiftLeft_eq, Nat.mul_comm,
    ← Nat.two_pow_add_eq_or_of_lt kk.isLt, BitVec.toNat_append, Nat.shiftLeft_eq, Nat.mul_comm n.toNat,
    ← Nat.two_pow_add_eq_or_of_lt (BitVec.ofFin (w := 4) x).isLt,
    show (BitVec.ofFin (w := 4) x).toNat = x.val from rfl]
  omega

theorem toNat_formatXYK (n : BitVec 4) (x y : RegId) (k : BitVec 4) :
    (formatXYK n x y k).toNat = n.toNat * 4096 + x.val * 256 + y.val * 16 + k.toNat := by
  rw [formatXYK, BitVec.toNat_cast, BitVec.toNat_append, Nat.shiftLeft_eq, Nat.mul_comm,
    ← Nat.two_pow_add_eq_or_of_lt k.isLt, BitVec.toNat_append, Nat.shiftLeft_eq, Nat.mul_comm (BitVec.toNat _),
    ← Nat.two_pow_add_eq_or_of_lt (BitVec.ofFin (w := 4) y).isLt, BitVec.toNat_append, Nat.shiftLeft_eq,
    Nat.mul_comm n.toNat, ← Nat.two_pow_add_eq_or_of_lt (BitVec.ofFin (w := 4) x).isLt,
    show (BitVec.ofFin (w := 4) x).toNat = x.val from rfl, show (BitVec.ofFin (w := 4) y).toNat = y.val from rfl]
  omega

end Sys2Proof
end

