-- ==== Sys2Proof/Laws/Memory.lean ====
section
/-! SUPPORT. The memory laws: a read after a write, and that every memory operation keeps the canonical form. -/

namespace Sys2Proof.Machine

theorem Memory.read_nil (a : Nat) : Memory.read [] a = resetByte a := rfl

/-- An address below every listed one reads as the reset contents. -/
theorem Memory.read_of_lt {m : Memory} {a : Nat} (h : ∀ c ∈ m, a < c.1) : m.read a = resetByte a := by
  induction m with
  | nil => rfl
  | cons c m ih =>
    have hc := h c (by simp)
    rw [Memory.read, if_neg (by omega)]
    exact ih fun d hd => h d (by simp [hd])

theorem Memory.read_insert (m : Memory) (a b : Nat) (v : Byte) :
    (m.insert a v).read b = if b = a then v else m.read b := by
  induction m with
  | nil => simp [Memory.insert, Memory.read]
  | cons c m ih =>
    obtain ⟨k, u⟩ := c
    simp only [Memory.insert]
    split
    · simp [Memory.read]
    · split
      · next h => subst h; simp only [Memory.read]; split <;> rfl
      · simp only [Memory.read, ih]
        split
        · next h1 h2 h3 => rw [if_neg (by omega)]
        · rfl

theorem Memory.read_erase {m : Memory} (h : m.wf) (a b : Nat) :
    (m.erase a).read b = if b = a then resetByte b else m.read b := by
  induction m with
  | nil => simp [Memory.erase, Memory.read]
  | cons c m ih =>
    obtain ⟨k, u⟩ := c
    obtain ⟨hs, he⟩ := h
    rw [List.pairwise_cons] at hs
    have hm : Memory.wf m := ⟨hs.2, fun d hd => he d (by simp [hd])⟩
    simp only [Memory.erase]
    split
    · next hk =>
      subst hk
      split
      · next hb => subst hb; exact Memory.read_of_lt fun d hd => hs.1 d hd
      · next hb => rw [Memory.read, if_neg hb]
    · simp only [Memory.read, ih hm]
      split
      · next h1 h2 => rw [if_neg (by omega)]
      · rfl

theorem Memory.mem_erase {m : Memory} {a : Nat} {c : Host.Cell} (h : c ∈ m.erase a) : c ∈ m := by
  induction m with
  | nil => simp [Memory.erase] at h
  | cons d m ih =>
    rw [Memory.erase] at h
    split at h
    · simp [h]
    · rcases List.mem_cons.1 h with h | h
      · simp [h]
      · simp [ih h]

theorem Memory.mem_insert {m : Memory} {a : Nat} {v : Byte} {c : Host.Cell} (h : c ∈ m.insert a v) :
    c = (a, v) ∨ c ∈ m := by
  induction m with
  | nil => simpa [Memory.insert] using h
  | cons d m ih =>
    rw [Memory.insert] at h
    split at h
    · simpa using h
    · split at h
      · rcases List.mem_cons.1 h with h | h
        · exact .inl h
        · simp [h]
      · rcases List.mem_cons.1 h with h | h
        · simp [h]
        · rcases ih h with h | h
          · exact .inl h
          · simp [h]

theorem Memory.wf_erase {m : Memory} (h : m.wf) (a : Nat) : (m.erase a).wf := by
  refine ⟨?_, fun c hc => h.2 c (Memory.mem_erase hc)⟩
  have hs := h.1
  clear h
  induction m with
  | nil => simp [Memory.erase]
  | cons d m ih =>
    rw [List.pairwise_cons] at hs
    rw [Memory.erase]
    split
    · exact hs.2
    · exact List.pairwise_cons.2 ⟨fun c hc => hs.1 c (Memory.mem_erase hc), ih hs.2⟩

theorem Memory.wf_insert {m : Memory} (h : m.wf) {a : Nat} {v : Byte} (ha : a < Config.memSize)
    (hv : v ≠ resetByte a) : (m.insert a v).wf := by
  refine ⟨?_, fun c hc => ?_⟩
  · have hs := h.1
    clear h
    induction m with
    | nil => simp [Memory.insert]
    | cons d m ih =>
      rw [List.pairwise_cons] at hs
      rw [Memory.insert]
      split
      · next hlt =>
        refine List.pairwise_cons.2 ⟨fun c hc => ?_, List.pairwise_cons.2 hs⟩
        rcases List.mem_cons.1 hc with rfl | hc
        · exact hlt
        · exact Nat.lt_trans hlt (hs.1 c hc)
      · split
        · next heq => subst heq; exact List.pairwise_cons.2 ⟨hs.1, hs.2⟩
        · refine List.pairwise_cons.2 ⟨fun c hc => ?_, ih hs.2⟩
          rcases Memory.mem_insert hc with rfl | hc
          · show d.1 < a; omega
          · exact hs.1 c hc
  · rcases Memory.mem_insert hc with rfl | hc
    · exact ⟨ha, hv⟩
    · exact h.2 c hc

/-- What a write does: an existing address reads as the value written, every other address as before. -/
theorem Memory.read_write {m : Memory} (h : m.wf) (a b : Nat) (v : Byte) :
    (m.write a v).read b = if b = a ∧ a < Config.memSize then v else m.read b := by
  rw [Memory.write]
  split
  · next ha =>
    split
    · next hv => rw [Memory.read_erase h]; simp only [ha, and_true]; split <;> simp_all
    · rw [Memory.read_insert]; simp [ha]
  · next ha => rw [if_neg (fun h => ha h.2)]

theorem Memory.wf_write {m : Memory} (h : m.wf) (a : Nat) (v : Byte) : (m.write a v).wf := by
  rw [Memory.write]
  split
  · split
    · exact Memory.wf_erase h a
    · exact Memory.wf_insert h ‹_› ‹_›
  · exact h

theorem Memory.wf_writeBytes {m : Memory} (h : m.wf) (a : Nat) (bs : List Byte) : (m.writeBytes a bs).wf := by
  induction bs generalizing m a with
  | nil => exact h
  | cons b bs ih => exact ih (Memory.wf_write h a b) (a + 1)

/-- What a run of byte writes does, when all its addresses exist: address `a + k` reads as byte `k`, every other
address as before. -/
theorem Memory.read_writeBytes {m : Memory} (h : m.wf) (a : Nat) (bs : List Byte)
    (hb : a + bs.length ≤ Config.memSize) (b : Nat) :
    (m.writeBytes a bs).read b =
      if a ≤ b ∧ b < a + bs.length then bs.getD (b - a) 0 else m.read b := by
  induction bs generalizing m a with
  | nil => rw [Memory.writeBytes, if_neg (by simp)]
  | cons v bs ih =>
    rw [List.length_cons] at hb
    rw [Memory.writeBytes, ih (Memory.wf_write h a v) (a + 1) (by omega), Memory.read_write h, List.length_cons]
    by_cases h1 : b = a
    · subst h1
      rw [if_neg (by omega), if_pos (by omega), if_pos (by omega)]; simp
    · by_cases h2 : a + 1 ≤ b ∧ b < a + 1 + bs.length
      · rw [if_pos h2, if_pos (by omega)]
        obtain ⟨k, hk⟩ : ∃ k, b - a = k + 1 := ⟨b - a - 1, by omega⟩
        rw [hk, show b - (a + 1) = k by omega]; simp
      · rw [if_neg h2, if_neg (fun h => h1 h.1), if_neg (by omega)]

theorem Memory.wf_nil : Memory.wf [] := ⟨List.Pairwise.nil, by simp⟩

@[simp] theorem Memory.length_readBytes (m : Memory) (a n : Nat) : (m.readBytes a n).length = n := by
  induction n generalizing a with
  | zero => rfl
  | succ n ih => simp [Memory.readBytes, ih]

/-- Byte `k` of a run of reads from `a` is the byte at `a + k`. -/
theorem Memory.getD_readBytes (m : Memory) (a n k : Nat) (h : k < n) :
    (m.readBytes a n).getD k 0 = m.read (a + k) := by
  induction n generalizing a k with
  | zero => omega
  | succ n ih =>
    cases k with
    | zero => simp [Memory.readBytes]
    | succ k =>
      have := ih (a + 1) k (by omega)
      rw [Memory.readBytes, List.getD_cons_succ, this, show a + 1 + k = a + (k + 1) by omega]

end Sys2Proof.Machine
end

