-- ==== Sys2Proof/Laws/State.lean ====
section
/-! SUPPORT. One lemma per field per update of the state, all by definition, so that no later proof unfolds a record
update; and the reads of registers, keys, cells and bytes through each update. -/

namespace Sys2Proof.Machine

variable (s : State)

@[simp] theorem State.setReg_i (x : RegId) (b : Byte) : (s.setReg x b).i = s.i := rfl
@[simp] theorem State.setReg_pc (x : RegId) (b : Byte) : (s.setReg x b).pc = s.pc := rfl
@[simp] theorem State.setReg_sp (x : RegId) (b : Byte) : (s.setReg x b).sp = s.sp := rfl
@[simp] theorem State.setReg_stack (x : RegId) (b : Byte) : (s.setReg x b).stack = s.stack := rfl
@[simp] theorem State.setReg_dt (x : RegId) (b : Byte) : (s.setReg x b).dt = s.dt := rfl
@[simp] theorem State.setReg_st (x : RegId) (b : Byte) : (s.setReg x b).st = s.st := rfl
@[simp] theorem State.setReg_key (x : RegId) (b : Byte) : (s.setReg x b).key = s.key := rfl
@[simp] theorem State.setReg_screen (x : RegId) (b : Byte) : (s.setReg x b).screen = s.screen := rfl
@[simp] theorem State.setReg_drawn (x : RegId) (b : Byte) : (s.setReg x b).drawn = s.drawn := rfl
@[simp] theorem State.setReg_fault (x : RegId) (b : Byte) : (s.setReg x b).fault = s.fault := rfl
@[simp] theorem State.setReg_mem (x : RegId) (b : Byte) : (s.setReg x b).mem = s.mem := rfl
@[simp] theorem State.setReg_rndDraws (x : RegId) (b : Byte) : (s.setReg x b).rndDraws = s.rndDraws := rfl

@[simp] theorem State.setFlag_i (c : Bool) : (s.setFlag c).i = s.i := rfl
@[simp] theorem State.setFlag_pc (c : Bool) : (s.setFlag c).pc = s.pc := rfl
@[simp] theorem State.setFlag_sp (c : Bool) : (s.setFlag c).sp = s.sp := rfl
@[simp] theorem State.setFlag_stack (c : Bool) : (s.setFlag c).stack = s.stack := rfl
@[simp] theorem State.setFlag_dt (c : Bool) : (s.setFlag c).dt = s.dt := rfl
@[simp] theorem State.setFlag_st (c : Bool) : (s.setFlag c).st = s.st := rfl
@[simp] theorem State.setFlag_key (c : Bool) : (s.setFlag c).key = s.key := rfl
@[simp] theorem State.setFlag_screen (c : Bool) : (s.setFlag c).screen = s.screen := rfl
@[simp] theorem State.setFlag_drawn (c : Bool) : (s.setFlag c).drawn = s.drawn := rfl
@[simp] theorem State.setFlag_fault (c : Bool) : (s.setFlag c).fault = s.fault := rfl
@[simp] theorem State.setFlag_mem (c : Bool) : (s.setFlag c).mem = s.mem := rfl
@[simp] theorem State.setFlag_rndDraws (c : Bool) : (s.setFlag c).rndDraws = s.rndDraws := rfl

@[simp] theorem State.setI_v (w : Word) : (s.setI w).v = s.v := rfl
@[simp] theorem State.setI_pc (w : Word) : (s.setI w).pc = s.pc := rfl
@[simp] theorem State.setI_sp (w : Word) : (s.setI w).sp = s.sp := rfl
@[simp] theorem State.setI_stack (w : Word) : (s.setI w).stack = s.stack := rfl
@[simp] theorem State.setI_dt (w : Word) : (s.setI w).dt = s.dt := rfl
@[simp] theorem State.setI_st (w : Word) : (s.setI w).st = s.st := rfl
@[simp] theorem State.setI_key (w : Word) : (s.setI w).key = s.key := rfl
@[simp] theorem State.setI_screen (w : Word) : (s.setI w).screen = s.screen := rfl
@[simp] theorem State.setI_drawn (w : Word) : (s.setI w).drawn = s.drawn := rfl
@[simp] theorem State.setI_fault (w : Word) : (s.setI w).fault = s.fault := rfl
@[simp] theorem State.setI_mem (w : Word) : (s.setI w).mem = s.mem := rfl
@[simp] theorem State.setI_rndDraws (w : Word) : (s.setI w).rndDraws = s.rndDraws := rfl
@[simp] theorem State.setI_i (w : Word) : (s.setI w).i = w := rfl

@[simp] theorem State.setPc_v (w : Word) : (s.setPc w).v = s.v := rfl
@[simp] theorem State.setPc_i (w : Word) : (s.setPc w).i = s.i := rfl
@[simp] theorem State.setPc_sp (w : Word) : (s.setPc w).sp = s.sp := rfl
@[simp] theorem State.setPc_stack (w : Word) : (s.setPc w).stack = s.stack := rfl
@[simp] theorem State.setPc_dt (w : Word) : (s.setPc w).dt = s.dt := rfl
@[simp] theorem State.setPc_st (w : Word) : (s.setPc w).st = s.st := rfl
@[simp] theorem State.setPc_key (w : Word) : (s.setPc w).key = s.key := rfl
@[simp] theorem State.setPc_screen (w : Word) : (s.setPc w).screen = s.screen := rfl
@[simp] theorem State.setPc_drawn (w : Word) : (s.setPc w).drawn = s.drawn := rfl
@[simp] theorem State.setPc_fault (w : Word) : (s.setPc w).fault = s.fault := rfl
@[simp] theorem State.setPc_mem (w : Word) : (s.setPc w).mem = s.mem := rfl
@[simp] theorem State.setPc_rndDraws (w : Word) : (s.setPc w).rndDraws = s.rndDraws := rfl
@[simp] theorem State.setPc_pc (w : Word) : (s.setPc w).pc = w := rfl

@[simp] theorem State.advance_v : s.advance.v = s.v := rfl
@[simp] theorem State.advance_i : s.advance.i = s.i := rfl
@[simp] theorem State.advance_sp : s.advance.sp = s.sp := rfl
@[simp] theorem State.advance_stack : s.advance.stack = s.stack := rfl
@[simp] theorem State.advance_dt : s.advance.dt = s.dt := rfl
@[simp] theorem State.advance_st : s.advance.st = s.st := rfl
@[simp] theorem State.advance_key : s.advance.key = s.key := rfl
@[simp] theorem State.advance_screen : s.advance.screen = s.screen := rfl
@[simp] theorem State.advance_drawn : s.advance.drawn = s.drawn := rfl
@[simp] theorem State.advance_fault : s.advance.fault = s.fault := rfl
@[simp] theorem State.advance_mem : s.advance.mem = s.mem := rfl
@[simp] theorem State.advance_rndDraws : s.advance.rndDraws = s.rndDraws := rfl
@[simp] theorem State.advance_pc : s.advance.pc = s.pc + 2 := rfl

@[simp] theorem State.storeBytes_v (a : Nat) (bs : List Byte) : (s.storeBytes a bs).v = s.v := rfl
@[simp] theorem State.storeBytes_i (a : Nat) (bs : List Byte) : (s.storeBytes a bs).i = s.i := rfl
@[simp] theorem State.storeBytes_pc (a : Nat) (bs : List Byte) : (s.storeBytes a bs).pc = s.pc := rfl
@[simp] theorem State.storeBytes_sp (a : Nat) (bs : List Byte) : (s.storeBytes a bs).sp = s.sp := rfl
@[simp] theorem State.storeBytes_stack (a : Nat) (bs : List Byte) : (s.storeBytes a bs).stack = s.stack := rfl
@[simp] theorem State.storeBytes_dt (a : Nat) (bs : List Byte) : (s.storeBytes a bs).dt = s.dt := rfl
@[simp] theorem State.storeBytes_st (a : Nat) (bs : List Byte) : (s.storeBytes a bs).st = s.st := rfl
@[simp] theorem State.storeBytes_key (a : Nat) (bs : List Byte) : (s.storeBytes a bs).key = s.key := rfl
@[simp] theorem State.storeBytes_screen (a : Nat) (bs : List Byte) : (s.storeBytes a bs).screen = s.screen := rfl
@[simp] theorem State.storeBytes_drawn (a : Nat) (bs : List Byte) : (s.storeBytes a bs).drawn = s.drawn := rfl
@[simp] theorem State.storeBytes_fault (a : Nat) (bs : List Byte) : (s.storeBytes a bs).fault = s.fault := rfl
@[simp] theorem State.storeBytes_rndDraws (a : Nat) (bs : List Byte) : (s.storeBytes a bs).rndDraws = s.rndDraws := rfl
@[simp] theorem State.storeBytes_mem (a : Nat) (bs : List Byte) : (s.storeBytes a bs).mem = s.mem.writeBytes a bs := rfl

@[simp] theorem State.drawByte_v : s.drawByte.2.v = s.v := rfl
@[simp] theorem State.drawByte_i : s.drawByte.2.i = s.i := rfl
@[simp] theorem State.drawByte_pc : s.drawByte.2.pc = s.pc := rfl
@[simp] theorem State.drawByte_sp : s.drawByte.2.sp = s.sp := rfl
@[simp] theorem State.drawByte_stack : s.drawByte.2.stack = s.stack := rfl
@[simp] theorem State.drawByte_dt : s.drawByte.2.dt = s.dt := rfl
@[simp] theorem State.drawByte_st : s.drawByte.2.st = s.st := rfl
@[simp] theorem State.drawByte_key : s.drawByte.2.key = s.key := rfl
@[simp] theorem State.drawByte_screen : s.drawByte.2.screen = s.screen := rfl
@[simp] theorem State.drawByte_drawn : s.drawByte.2.drawn = s.drawn := rfl
@[simp] theorem State.drawByte_fault : s.drawByte.2.fault = s.fault := rfl
@[simp] theorem State.drawByte_mem : s.drawByte.2.mem = s.mem := rfl
@[simp] theorem State.drawByte_rndDraws : s.drawByte.2.rndDraws = s.rndDraws + 1 := rfl

@[simp] theorem State.updateKeys_v (up : Vector (Option Bool) 16) : (s.updateKeys up).v = s.v := rfl
@[simp] theorem State.updateKeys_i (up : Vector (Option Bool) 16) : (s.updateKeys up).i = s.i := rfl
@[simp] theorem State.updateKeys_pc (up : Vector (Option Bool) 16) : (s.updateKeys up).pc = s.pc := rfl
@[simp] theorem State.updateKeys_sp (up : Vector (Option Bool) 16) : (s.updateKeys up).sp = s.sp := rfl
@[simp] theorem State.updateKeys_stack (up : Vector (Option Bool) 16) : (s.updateKeys up).stack = s.stack := rfl
@[simp] theorem State.updateKeys_dt (up : Vector (Option Bool) 16) : (s.updateKeys up).dt = s.dt := rfl
@[simp] theorem State.updateKeys_st (up : Vector (Option Bool) 16) : (s.updateKeys up).st = s.st := rfl
@[simp] theorem State.updateKeys_screen (up : Vector (Option Bool) 16) : (s.updateKeys up).screen = s.screen := rfl
@[simp] theorem State.updateKeys_drawn (up : Vector (Option Bool) 16) : (s.updateKeys up).drawn = s.drawn := rfl
@[simp] theorem State.updateKeys_fault (up : Vector (Option Bool) 16) : (s.updateKeys up).fault = s.fault := rfl
@[simp] theorem State.updateKeys_mem (up : Vector (Option Bool) 16) : (s.updateKeys up).mem = s.mem := rfl
@[simp] theorem State.updateKeys_rndDraws (up : Vector (Option Bool) 16) : (s.updateKeys up).rndDraws = s.rndDraws := rfl

@[simp] theorem State.timerTick_v : s.timerTick.v = s.v := rfl
@[simp] theorem State.timerTick_i : s.timerTick.i = s.i := rfl
@[simp] theorem State.timerTick_pc : s.timerTick.pc = s.pc := rfl
@[simp] theorem State.timerTick_sp : s.timerTick.sp = s.sp := rfl
@[simp] theorem State.timerTick_stack : s.timerTick.stack = s.stack := rfl
@[simp] theorem State.timerTick_key : s.timerTick.key = s.key := rfl
@[simp] theorem State.timerTick_screen : s.timerTick.screen = s.screen := rfl
@[simp] theorem State.timerTick_drawn : s.timerTick.drawn = s.drawn := rfl
@[simp] theorem State.timerTick_fault : s.timerTick.fault = s.fault := rfl
@[simp] theorem State.timerTick_mem : s.timerTick.mem = s.mem := rfl
@[simp] theorem State.timerTick_rndDraws : s.timerTick.rndDraws = s.rndDraws := rfl

@[simp] theorem State.ackDraw_v : s.ackDraw.v = s.v := rfl
@[simp] theorem State.ackDraw_i : s.ackDraw.i = s.i := rfl
@[simp] theorem State.ackDraw_pc : s.ackDraw.pc = s.pc := rfl
@[simp] theorem State.ackDraw_sp : s.ackDraw.sp = s.sp := rfl
@[simp] theorem State.ackDraw_stack : s.ackDraw.stack = s.stack := rfl
@[simp] theorem State.ackDraw_dt : s.ackDraw.dt = s.dt := rfl
@[simp] theorem State.ackDraw_st : s.ackDraw.st = s.st := rfl
@[simp] theorem State.ackDraw_key : s.ackDraw.key = s.key := rfl
@[simp] theorem State.ackDraw_screen : s.ackDraw.screen = s.screen := rfl
@[simp] theorem State.ackDraw_fault : s.ackDraw.fault = s.fault := rfl
@[simp] theorem State.ackDraw_mem : s.ackDraw.mem = s.mem := rfl
@[simp] theorem State.ackDraw_rndDraws : s.ackDraw.rndDraws = s.rndDraws := rfl
@[simp] theorem State.ackDraw_drawn : s.ackDraw.drawn = false := rfl

@[simp] theorem State.timerTick_dt : s.timerTick.dt = tickDown s.dt := rfl
@[simp] theorem State.timerTick_st : s.timerTick.st = tickDown s.st := rfl

@[simp] theorem State.skipIf_v (c : Bool) : (s.skipIf c).v = s.v := by cases c <;> rfl
@[simp] theorem State.skipIf_i (c : Bool) : (s.skipIf c).i = s.i := by cases c <;> rfl
@[simp] theorem State.skipIf_sp (c : Bool) : (s.skipIf c).sp = s.sp := by cases c <;> rfl
@[simp] theorem State.skipIf_stack (c : Bool) : (s.skipIf c).stack = s.stack := by cases c <;> rfl
@[simp] theorem State.skipIf_dt (c : Bool) : (s.skipIf c).dt = s.dt := by cases c <;> rfl
@[simp] theorem State.skipIf_st (c : Bool) : (s.skipIf c).st = s.st := by cases c <;> rfl
@[simp] theorem State.skipIf_key (c : Bool) : (s.skipIf c).key = s.key := by cases c <;> rfl
@[simp] theorem State.skipIf_screen (c : Bool) : (s.skipIf c).screen = s.screen := by cases c <;> rfl
@[simp] theorem State.skipIf_drawn (c : Bool) : (s.skipIf c).drawn = s.drawn := by cases c <;> rfl
@[simp] theorem State.skipIf_fault (c : Bool) : (s.skipIf c).fault = s.fault := by cases c <;> rfl
@[simp] theorem State.skipIf_mem (c : Bool) : (s.skipIf c).mem = s.mem := by cases c <;> rfl
@[simp] theorem State.skipIf_rndDraws (c : Bool) : (s.skipIf c).rndDraws = s.rndDraws := by cases c <;> rfl
@[simp] theorem State.skipIf_pc (c : Bool) : (s.skipIf c).pc = if c then s.pc + 2 else s.pc := by cases c <;> rfl

@[simp] theorem State.reg_setReg_self (x : RegId) (b : Byte) : (s.setReg x b).reg x = b := by
  simp [State.reg, State.setReg, Vector.get_eq_getElem]

theorem State.reg_setReg_of_ne (x : RegId) (b : Byte) (r : RegId) (h : r ≠ x) : (s.setReg x b).reg r = s.reg r := by
  simp [State.reg, State.setReg, Vector.get_eq_getElem, Fin.val_ne_of_ne (Ne.symm h)]

/-- A register write changes the register written and no other. -/
theorem State.reg_setReg (x : RegId) (b : Byte) (r : RegId) :
    (s.setReg x b).reg r = if r = x then b else s.reg r := by
  split
  · next h => subst h; exact s.reg_setReg_self r b
  · next h => exact s.reg_setReg_of_ne x b r h

/-- A flag write changes `VF` and no other register. -/
theorem State.reg_setFlag (c : Bool) (r : RegId) :
    (s.setFlag c).reg r = if r = vf then flagByte c else s.reg r := s.reg_setReg vf (flagByte c) r

@[simp] theorem State.setReg_pressed (x : RegId) (b : Byte) (k : KeyId) : (s.setReg x b).pressed k = s.pressed k := rfl
@[simp] theorem State.setReg_readCell (x : RegId) (b : Byte) (idx : CellIdx) : (s.setReg x b).readCell idx = s.readCell idx := rfl
@[simp] theorem State.setReg_readMem (x : RegId) (b : Byte) (n : Nat) : (s.setReg x b).readMem n = s.readMem n := rfl
@[simp] theorem State.setFlag_pressed (c : Bool) (k : KeyId) : (s.setFlag c).pressed k = s.pressed k := rfl
@[simp] theorem State.setFlag_readCell (c : Bool) (idx : CellIdx) : (s.setFlag c).readCell idx = s.readCell idx := rfl
@[simp] theorem State.setFlag_readMem (c : Bool) (n : Nat) : (s.setFlag c).readMem n = s.readMem n := rfl
@[simp] theorem State.setI_reg (w : Word) (r : RegId) : (s.setI w).reg r = s.reg r := rfl
@[simp] theorem State.setI_pressed (w : Word) (k : KeyId) : (s.setI w).pressed k = s.pressed k := rfl
@[simp] theorem State.setI_readCell (w : Word) (idx : CellIdx) : (s.setI w).readCell idx = s.readCell idx := rfl
@[simp] theorem State.setI_readMem (w : Word) (n : Nat) : (s.setI w).readMem n = s.readMem n := rfl
@[simp] theorem State.setPc_reg (w : Word) (r : RegId) : (s.setPc w).reg r = s.reg r := rfl
@[simp] theorem State.setPc_pressed (w : Word) (k : KeyId) : (s.setPc w).pressed k = s.pressed k := rfl
@[simp] theorem State.setPc_readCell (w : Word) (idx : CellIdx) : (s.setPc w).readCell idx = s.readCell idx := rfl
@[simp] theorem State.setPc_readMem (w : Word) (n : Nat) : (s.setPc w).readMem n = s.readMem n := rfl
@[simp] theorem State.advance_reg (r : RegId) : s.advance.reg r = s.reg r := rfl
@[simp] theorem State.advance_pressed (k : KeyId) : s.advance.pressed k = s.pressed k := rfl
@[simp] theorem State.advance_readCell (idx : CellIdx) : s.advance.readCell idx = s.readCell idx := rfl
@[simp] theorem State.advance_readMem (n : Nat) : s.advance.readMem n = s.readMem n := rfl
@[simp] theorem State.storeBytes_reg (a : Nat) (bs : List Byte) (r : RegId) : (s.storeBytes a bs).reg r = s.reg r := rfl
@[simp] theorem State.storeBytes_pressed (a : Nat) (bs : List Byte) (k : KeyId) : (s.storeBytes a bs).pressed k = s.pressed k := rfl
@[simp] theorem State.storeBytes_readCell (a : Nat) (bs : List Byte) (idx : CellIdx) : (s.storeBytes a bs).readCell idx = s.readCell idx := rfl
@[simp] theorem State.drawByte_reg (r : RegId) : s.drawByte.2.reg r = s.reg r := rfl
@[simp] theorem State.drawByte_pressed (k : KeyId) : s.drawByte.2.pressed k = s.pressed k := rfl
@[simp] theorem State.drawByte_readCell (idx : CellIdx) : s.drawByte.2.readCell idx = s.readCell idx := rfl
@[simp] theorem State.drawByte_readMem (n : Nat) : s.drawByte.2.readMem n = s.readMem n := rfl
@[simp] theorem State.updateKeys_reg (up : Vector (Option Bool) 16) (r : RegId) : (s.updateKeys up).reg r = s.reg r := rfl
@[simp] theorem State.updateKeys_readCell (up : Vector (Option Bool) 16) (idx : CellIdx) : (s.updateKeys up).readCell idx = s.readCell idx := rfl
@[simp] theorem State.updateKeys_readMem (up : Vector (Option Bool) 16) (n : Nat) : (s.updateKeys up).readMem n = s.readMem n := rfl
@[simp] theorem State.timerTick_reg (r : RegId) : s.timerTick.reg r = s.reg r := rfl
@[simp] theorem State.timerTick_pressed (k : KeyId) : s.timerTick.pressed k = s.pressed k := rfl
@[simp] theorem State.timerTick_readCell (idx : CellIdx) : s.timerTick.readCell idx = s.readCell idx := rfl
@[simp] theorem State.timerTick_readMem (n : Nat) : s.timerTick.readMem n = s.readMem n := rfl
@[simp] theorem State.ackDraw_reg (r : RegId) : s.ackDraw.reg r = s.reg r := rfl
@[simp] theorem State.ackDraw_pressed (k : KeyId) : s.ackDraw.pressed k = s.pressed k := rfl
@[simp] theorem State.ackDraw_readCell (idx : CellIdx) : s.ackDraw.readCell idx = s.readCell idx := rfl
@[simp] theorem State.ackDraw_readMem (n : Nat) : s.ackDraw.readMem n = s.readMem n := rfl

@[simp] theorem State.skipIf_reg (c : Bool) (r : RegId) : (s.skipIf c).reg r = s.reg r := by cases c <;> rfl
@[simp] theorem State.skipIf_pressed (c : Bool) (k : KeyId) : (s.skipIf c).pressed k = s.pressed k := by cases c <;> rfl
@[simp] theorem State.skipIf_readCell (c : Bool) (idx : CellIdx) : (s.skipIf c).readCell idx = s.readCell idx := by cases c <;> rfl
@[simp] theorem State.skipIf_readMem (c : Bool) (n : Nat) : (s.skipIf c).readMem n = s.readMem n := by cases c <;> rfl
@[simp] theorem State.drawByte_fst : s.drawByte.1 = Config.randomByte s.rndDraws := rfl

/-- A skip and the trailing advance together move `pc` by 2 or by 4 (R104). -/
theorem State.skipIf_advance_pc (c : Bool) :
    (s.skipIf c).advance.pc = s.pc + 2 ∨ (s.skipIf c).advance.pc = s.pc + 2 + 2 := by
  cases c
  · exact .inl rfl
  · exact .inr rfl

/-- Two register files with the same registers are the same. -/
theorem State.v_ext {s t : State} (h : ∀ r : RegId, t.reg r = s.reg r) : t.v = s.v := by
  apply Vector.ext
  intro k hk
  exact h ⟨k, hk⟩

end Sys2Proof.Machine
end

