-- ==== Sys2Proof/Laws/Ops.lean ====
section
/-! SUPPORT. One lemma per shared operation of `Machine/Ops.lean` and `Machine/Operands.lean`, saying once everything
it can do; later proofs cite it and do not unfold the operation. -/

namespace Sys2Proof.Machine

@[simp] theorem done_eq (s : State) : done s = .next s.advance := rfl
@[simp] theorem hold_eq (s : State) : hold s = .next s := rfl
@[simp] theorem raise_eq (f : FaultInfo) (s : State) : raise f s = .next { s with fault := some f } := rfl

/-- The data bound of R57, as a case split: all bytes exist, or the lowest bad address is named. -/
theorem lowestBad_eq_none_iff (base : Word) (n : Nat) :
    lowestBad base n = none ↔ n = 0 ∨ base.toNat + n ≤ Config.memSize := by
  rw [lowestBad]
  split
  · next h => simp; omega
  · next h => simp; omega

theorem lowestBad_eq_some {base : Word} {n a : Nat} (h : lowestBad base n = some a) :
    a = max base.toNat Config.memSize ∧ 0 < n ∧ Config.memSize < base.toNat + n := by
  rw [lowestBad] at h
  split at h
  · next hc => exact ⟨(Option.some.inj h).symm, hc.1, by omega⟩
  · simp at h

/-- A data operation runs its body when all its bytes exist, and else raises MemoryOutOfBounds and does nothing. -/
theorem withDataRange_cases {n : Nat} {s : State} {body : Result} :
    ((n = 0 ∨ s.i.toNat + n ≤ Config.memSize) ∧ withDataRange n s body = body) ∨
    (0 < n ∧ Config.memSize < s.i.toNat + n ∧
      withDataRange n s body = raise (.memoryOutOfBounds s.pc (max s.i.toNat Config.memSize)) s) := by
  cases h : lowestBad s.i n with
  | none => exact .inl ⟨(lowestBad_eq_none_iff _ _).1 h, by rw [withDataRange, h]⟩
  | some a =>
    obtain ⟨rfl, h1, h2⟩ := lowestBad_eq_some h
    exact .inr ⟨h1, h2, by rw [withDataRange, h]⟩

theorem withDataRange_of_fits {n : Nat} {s : State} {body : Result}
    (h : n = 0 ∨ s.i.toNat + n ≤ Config.memSize) : withDataRange n s body = body := by
  rw [withDataRange, (lowestBad_eq_none_iff _ _).2 h]

/-- A data operation that answers a next state completed its body, or latched a fault and did nothing else. -/
theorem withDataRange_next {n : Nat} {s t body : State} (h : withDataRange n s (done body) = .next t) :
    t = body.advance ∨ ∃ f, t = { s with fault := some f } := by
  rcases withDataRange_cases (n := n) (s := s) (body := done body) with ⟨_, h'⟩ | ⟨_, _, h'⟩
  · rw [h'] at h; cases h; exact .inl rfl
  · rw [h'] at h; cases h; exact .inr ⟨_, rfl⟩

/-- A key operation runs its body on the key `V[x]` names, or raises KeyOutOfRange and does nothing. -/
theorem withKey_cases {x : RegId} {s : State} {body : KeyId → Result} :
    (∃ h : (s.reg x).toNat < 16, withKey x s body = body ⟨(s.reg x).toNat, h⟩) ∨
    (16 ≤ (s.reg x).toNat ∧ withKey x s body = raise (.keyOutOfRange s.pc (s.reg x)) s) := by
  by_cases h : (s.reg x).toNat < 16
  · exact .inl ⟨h, by rw [withKey, dif_pos h]⟩
  · exact .inr ⟨by omega, by rw [withKey, dif_neg h]⟩

/-- `V0..Vx` are the registers at or below `x`. -/
@[simp] theorem mem_regsUpTo {x k : RegId} : k ∈ regsUpTo x ↔ k ≤ x := by simp [regsUpTo]

theorem length_regsUpTo (x : RegId) : (regsUpTo x).length = x.val + 1 := by revert x; decide

theorem nodup_regsUpTo (x : RegId) : (regsUpTo x).Nodup := (List.nodup_finRange 16).filter _

/-- Register number `n` of `V0..Vx` is V`n`: the loop is ascending. -/
theorem getElem_regsUpTo (x : RegId) (n : Nat) (h : n < (regsUpTo x).length) :
    ((regsUpTo x)[n]).val = n := by
  have all : ∀ x : RegId, (regsUpTo x).map Fin.val = List.range (x.val + 1) := by decide
  have hn : n < ((regsUpTo x).map Fin.val).length := by simpa using h
  have : ((regsUpTo x).map Fin.val)[n] = n := by simp [all x]
  simpa using this

theorem State.pressed_lowestKey {s : State} {k : KeyId} (h : s.lowestKey = some k) : s.pressed k = true :=
  List.find?_some (p := fun k => s.pressed k) h

theorem State.lowestKey_eq_none_iff {s : State} : s.lowestKey = none ↔ ∀ k : KeyId, s.pressed k = false := by
  simp [State.lowestKey, List.find?_eq_none]

/-- What the loop of LD Vx, [I] does to a register: `V[k] <- MemRead(I + k, 1)` for those of the list, no other. -/
theorem loadRegs_reg (ks : List RegId) (s : State) (r : RegId) :
    (loadRegs ks s).reg r = if r ∈ ks then s.readMem (s.i.toNat + r.val) else s.reg r := by
  induction ks generalizing s with
  | nil => simp [loadRegs]
  | cons k ks ih =>
    have step : loadRegs (k :: ks) s = loadRegs ks (s.setReg k (s.readMem (s.i.toNat + k.val))) := rfl
    rw [step, ih, State.reg_setReg]
    by_cases h1 : r ∈ ks
    · simp [h1]
    · by_cases h2 : r = k
      · subst h2; simp [h1]
      · simp [h1, h2]

/-- The loop of LD Vx, [I] writes V registers only. -/
theorem loadRegs_eq (ks : List RegId) (s : State) : loadRegs ks s = { s with v := (loadRegs ks s).v } := by
  induction ks generalizing s with
  | nil => rfl
  | cons k ks ih => exact ih (s.setReg k (s.readMem (s.i.toNat + k.val)))

/-- The fetch: out of bounds, or the two bytes at `pc`, high byte first, dispatched (R72, R83, R214). -/
theorem State.fetch_of_bound {s : State} (h : Config.memSize ≤ s.pc.toNat + 1) :
    s.fetch = .error (.decodeOutOfBounds s.pc) := by
  rw [State.fetch, State.fetchBytes, if_pos h]

theorem State.fetch_of_decode {s : State} {i : Instr} (h : s.pc.toNat + 1 < Config.memSize)
    (hd : decode (s.readMem s.pc.toNat) (s.readMem (s.pc.toNat + 1)) = .ok i) : s.fetch = .ok i := by
  rw [State.fetch, State.fetchBytes, if_neg (by omega)]
  simp only [hd]

theorem State.fetch_ok {s : State} {i : Instr} (h : s.fetch = .ok i) :
    s.pc.toNat + 1 < Config.memSize ∧
      decode (s.readMem s.pc.toNat) (s.readMem (s.pc.toNat + 1)) = .ok i := by
  by_cases hb : Config.memSize ≤ s.pc.toNat + 1
  · rw [State.fetch_of_bound hb] at h; cases h
  · rw [State.fetch, State.fetchBytes, if_neg hb] at h
    refine ⟨by omega, ?_⟩
    cases hd : decode (s.readMem s.pc.toNat) (s.readMem (s.pc.toNat + 1)) with
    | ok j => simp only [hd] at h; cases h; rfl
    | error e => simp only [hd] at h; cases h

end Sys2Proof.Machine
end

