-- ==== Sys2Proof/Laws/Display.lean ====
section
/-! SUPPORT. What one toggled pixel does to the display, and that drawing keeps every cell at 0 or 1 (R33). -/

namespace Sys2Proof.Machine

@[simp] theorem pixelIndex_val (vx vy : Byte) (i j : Nat) :
    (pixelIndex vx vy i j).val = (vx.toNat + j) % 64 + (vy.toNat + i) % 32 * 64 := rfl

/-- A toggled pixel flips its own cell and no other. -/
theorem togglePixel_get (idx : CellIdx) (c : Canvas) (k : CellIdx) :
    (togglePixel idx c).screen.get k = if k = idx then c.screen.get k ^^^ 1 else c.screen.get k := by
  by_cases h : k = idx
  · subst h; simp [togglePixel, Vector.get_eq_getElem]
  · have := Fin.val_ne_of_ne (Ne.symm h)
    simp [togglePixel, Vector.get_eq_getElem, h, this]

/-- A toggled pixel reports a hit when its cell was lit. -/
theorem togglePixel_hit (idx : CellIdx) (c : Canvas) :
    (togglePixel idx c).hit = (c.hit || c.screen.get idx == 1) := rfl

/-- Every cell of a canvas holds 0 or 1. -/
def Canvas.binary (c : Canvas) : Prop := ∀ k : CellIdx, c.screen.get k = 0 ∨ c.screen.get k = 1

theorem togglePixel_binary {c : Canvas} (h : c.binary) (idx : CellIdx) : (togglePixel idx c).binary := by
  intro k
  rw [togglePixel_get]
  split
  · rcases h k with h | h <;> simp [h]
  · exact h k

theorem drawRow_binary {c : Canvas} (h : c.binary) (vx vy : Byte) (i : Nat) (row : Byte) :
    (drawRow vx vy i row c).binary := by
  rw [drawRow]
  induction List.range 8 generalizing c with
  | nil => exact h
  | cons j js ih =>
    rw [List.foldl_cons]
    refine ih ?_
    split
    · exact togglePixel_binary h _
    · exact h

theorem drawRows_binary {c : Canvas} (h : c.binary) (vx vy : Byte) (i : Nat) (rows : List Byte) :
    (drawRows vx vy i rows c).binary := by
  induction rows generalizing c i with
  | nil => exact h
  | cons row rows ih => exact ih (drawRow_binary h vx vy i row) (i + 1)

/-! The pixels of a sprite as one list of cells: a draw toggles each of them once. -/

/-- The cells of row `i` under a set bit. -/
def rowPixels (vx vy : Byte) (i : Nat) (row : Byte) : List CellIdx :=
  ((List.range 8).filter fun j => spriteBit row j).map fun j => pixelIndex vx vy i j

/-- The cells of the sprite's rows from row `i` on under a set bit. -/
def spritePixels (vx vy : Byte) (i : Nat) : List Byte → List CellIdx
  | [] => []
  | row :: rows => rowPixels vx vy i row ++ spritePixels vx vy (i + 1) rows

/-- Toggle a list of cells, in order. -/
def toggleAll (ks : List CellIdx) (c : Canvas) : Canvas := ks.foldl (fun c k => togglePixel k c) c

theorem toggleAll_append (ks ls : List CellIdx) (c : Canvas) :
    toggleAll (ks ++ ls) c = toggleAll ls (toggleAll ks c) := List.foldl_append

theorem drawRow_eq (vx vy : Byte) (i : Nat) (row : Byte) (c : Canvas) :
    drawRow vx vy i row c = toggleAll (rowPixels vx vy i row) c := by
  rw [drawRow, toggleAll, rowPixels, List.foldl_map, List.foldl_filter]

theorem drawRows_eq (vx vy : Byte) (i : Nat) (rows : List Byte) (c : Canvas) :
    drawRows vx vy i rows c = toggleAll (spritePixels vx vy i rows) c := by
  induction rows generalizing c i with
  | nil => rfl
  | cons row rows ih => rw [drawRows, ih, drawRow_eq, spritePixels, toggleAll_append]

/-- Toggling distinct cells flips those and no other. -/
theorem toggleAll_get {ks : List CellIdx} (hn : ks.Nodup) (c : Canvas) (k : CellIdx) :
    (toggleAll ks c).screen.get k = if k ∈ ks then c.screen.get k ^^^ 1 else c.screen.get k := by
  induction ks generalizing c with
  | nil => simp [toggleAll]
  | cons l ks ih =>
    obtain ⟨hl, hn⟩ := List.nodup_cons.1 hn
    have : toggleAll (l :: ks) c = toggleAll ks (togglePixel l c) := rfl
    rw [this, ih hn, togglePixel_get]
    by_cases h1 : k = l
    · subst h1; simp [hl]
    · by_cases h2 : k ∈ ks <;> simp [h1, h2]

/-- Toggling distinct cells reports a hit when one of them was lit. -/
theorem toggleAll_hit {ks : List CellIdx} (hn : ks.Nodup) (c : Canvas) :
    (toggleAll ks c).hit = true ↔ c.hit = true ∨ ∃ k ∈ ks, c.screen.get k = 1 := by
  induction ks generalizing c with
  | nil => simp [toggleAll]
  | cons l ks ih =>
    obtain ⟨hl, hn⟩ := List.nodup_cons.1 hn
    have : toggleAll (l :: ks) c = toggleAll ks (togglePixel l c) := rfl
    rw [this, ih hn, togglePixel_hit]
    have hk : ∀ k ∈ ks, (togglePixel l c).screen.get k = c.screen.get k := fun k hk => by
      have hne : k ≠ l := fun h => hl (by rw [← h]; exact hk)
      rw [togglePixel_get, if_neg hne]
    constructor
    · rintro (h | ⟨k, h1, h2⟩)
      · rcases (Bool.or_eq_true _ _).mp h with h | h
        · exact .inl h
        · exact .inr ⟨l, by simp, by simpa using h⟩
      · exact .inr ⟨k, by simp [h1], hk k h1 ▸ h2⟩
    · rintro (h | ⟨k, h1, h2⟩)
      · exact .inl (by simp [h])
      · rcases List.mem_cons.1 h1 with rfl | h1
        · exact .inl (by simp [h2])
        · exact .inr ⟨k, h1, (hk k h1).trans h2⟩

/-- The cells of a sprite: row `r`, column `j`, set bit. -/
theorem mem_spritePixels {vx vy : Byte} {i : Nat} {rows : List Byte} {k : CellIdx} :
    k ∈ spritePixels vx vy i rows ↔
      ∃ r < rows.length, ∃ j < 8, spriteBit (rows.getD r 0) j = true ∧ k = pixelIndex vx vy (i + r) j := by
  induction rows generalizing i with
  | nil => simp [spritePixels]
  | cons row rows ih =>
    rw [spritePixels, List.mem_append, ih]
    simp only [rowPixels, List.mem_map, List.mem_filter, List.mem_range]
    constructor
    · rintro (⟨j, ⟨h1, h2⟩, rfl⟩ | ⟨r, h1, j, h2, h3, rfl⟩)
      · exact ⟨0, by simp, j, h1, by simpa using h2, rfl⟩
      · exact ⟨r + 1, by simpa using h1, j, h2, by simpa using h3, by rw [Nat.add_right_comm, Nat.add_assoc]⟩
    · rintro ⟨r, h1, j, h2, h3, rfl⟩
      cases r with
      | zero => exact .inl ⟨j, ⟨h2, by simpa using h3⟩, rfl⟩
      | succ r =>
        exact .inr ⟨r, by simpa using h1, j, h2, by simpa using h3, by rw [Nat.add_right_comm, Nat.add_assoc]⟩

/-- Within 32 rows and 8 columns, different pixels reach different cells (R183). -/
theorem pixelIndex_inj {vx vy : Byte} {i i' j j' : Nat} (hj : j < 8) (hj' : j' < 8) (hi : i < i' + 32)
    (hi' : i' < i + 32) (h : pixelIndex vx vy i j = pixelIndex vx vy i' j') : i = i' ∧ j = j' := by
  have h := congrArg Fin.val h
  rw [pixelIndex_val, pixelIndex_val] at h
  omega

/-- No two pixels of one draw reach the same cell (R183). -/
theorem nodup_spritePixels (vx vy : Byte) (i : Nat) (rows : List Byte) (h : rows.length ≤ 32) :
    (spritePixels vx vy i rows).Nodup := by
  induction rows generalizing i with
  | nil => simp [spritePixels]
  | cons row rows ih =>
    rw [List.length_cons] at h
    rw [spritePixels, List.nodup_append]
    refine ⟨?_, ih (i + 1) (by omega), ?_⟩
    · refine List.Nodup.map_on ?_ (List.nodup_range.filter _)
      intro j hj j' hj' he
      simp only [List.mem_filter, List.mem_range] at hj hj'
      exact (pixelIndex_inj hj.1 hj'.1 (by omega) (by omega) he).2
    · intro k hk k' hk' he
      subst he
      simp only [rowPixels, List.mem_map, List.mem_filter, List.mem_range] at hk
      obtain ⟨j, ⟨hj, _⟩, rfl⟩ := hk
      obtain ⟨r, hr, j', hj', _, he⟩ := mem_spritePixels.1 hk'
      have := (pixelIndex_inj hj hj' (by omega) (by omega) he).1
      omega

/-- What drawing does to a cell: those under a set bit of the sprite are flipped, the others kept. -/
theorem drawRows_get (vx vy : Byte) (rows : List Byte) (h : rows.length ≤ 32) (c : Canvas) (k : CellIdx) :
    (drawRows vx vy 0 rows c).screen.get k =
      if k ∈ spritePixels vx vy 0 rows then c.screen.get k ^^^ 1 else c.screen.get k := by
  rw [drawRows_eq, toggleAll_get (nodup_spritePixels vx vy 0 rows h)]

/-- When drawing reports a hit: a cell under a set bit of the sprite was lit. -/
theorem drawRows_hit (vx vy : Byte) (rows : List Byte) (h : rows.length ≤ 32) (c : Canvas) :
    (drawRows vx vy 0 rows c).hit = true ↔
      c.hit = true ∨ ∃ k ∈ spritePixels vx vy 0 rows, c.screen.get k = 1 := by
  rw [drawRows_eq, toggleAll_hit (nodup_spritePixels vx vy 0 rows h)]

end Sys2Proof.Machine
end

