-- ==== Sys2Proof/Laws/PerInstr.lean ====
section
/-! SUPPORT. Per-instruction laws of the encoder. Family `EncodeMatchesRow`: an encoded instruction has the fixed bits
of its own row of the opcode table (R86), `w & mask == match`. -/

namespace Sys2Proof.Laws.EncodeMatchesRow

/-- The row of `spec/opcode_table.json` an instruction belongs to, as `(mask, match)` (R86). -/
def row : Instr → Word × Word
  | .cls => (0xF0FF, 0x00E0)
  | .ret => (0xF0FF, 0x00EE)
  | .nop => (0xF0FF, 0x0000)
  | .jp _ => (0xF000, 0x1000)
  | .call _ => (0xF000, 0x2000)
  | .seByte _ _ => (0xF000, 0x3000)
  | .sneByte _ _ => (0xF000, 0x4000)
  | .seReg _ _ => (0xF00F, 0x5000)
  | .ldByte _ _ => (0xF000, 0x6000)
  | .addByte _ _ => (0xF000, 0x7000)
  | .ldReg _ _ => (0xF00F, 0x8000)
  | .or _ _ => (0xF00F, 0x8001)
  | .and _ _ => (0xF00F, 0x8002)
  | .xor _ _ => (0xF00F, 0x8003)
  | .addReg _ _ => (0xF00F, 0x8004)
  | .sub _ _ => (0xF00F, 0x8005)
  | .shr _ _ => (0xF00F, 0x8006)
  | .subn _ _ => (0xF00F, 0x8007)
  | .shl _ _ => (0xF00F, 0x800E)
  | .sneReg _ _ => (0xF00F, 0x9000)
  | .ldI _ => (0xF000, 0xA000)
  | .jpV0 _ => (0xF000, 0xB000)
  | .rnd _ _ => (0xF000, 0xC000)
  | .drw _ _ _ => (0xF000, 0xD000)
  | .skp _ => (0xF0FF, 0xE09E)
  | .sknp _ => (0xF0FF, 0xE0A1)
  | .ldVxDt _ => (0xF0FF, 0xF007)
  | .ldVxK _ => (0xF0FF, 0xF00A)
  | .ldDtVx _ => (0xF0FF, 0xF015)
  | .ldStVx _ => (0xF0FF, 0xF018)
  | .addI _ => (0xF0FF, 0xF01E)
  | .ldF _ => (0xF0FF, 0xF029)
  | .ldB _ => (0xF0FF, 0xF033)
  | .ldMemVx _ => (0xF0FF, 0xF055)
  | .ldVxMem _ => (0xF0FF, 0xF065)

/-- The encoding carries the fixed bits of the instruction's row (R86). -/
def Statement (i : Instr) : Prop := encode i &&& (row i).1 = (row i).2

/-- Format A holds its top nibble (R79). -/
theorem formatA_mask (n : BitVec 4) (addr : Word) : formatA n addr &&& 0xF000 = (n ++ 0#12).cast rfl := by
  apply BitVec.eq_of_getLsbD_eq
  intro k hk
  have hm : ∀ k < 16, (0xF000 : Word).getLsbD k = decide (12 ≤ k) := by decide
  simp only [formatA, BitVec.getLsbD_and, BitVec.getLsbD_cast, BitVec.getLsbD_append, hm k hk, BitVec.getLsbD_zero]
  by_cases h : k < 12
  · simp [h, show ¬ 12 ≤ k by omega]
  · simp [h, show 12 ≤ k by omega]

/-- Format XB holds its top nibble (R79). -/
theorem formatXB_mask_n (n : BitVec 4) (x : RegId) (kk : Byte) : formatXB n x kk &&& 0xF000 = (n ++ 0#12).cast rfl := by
  apply BitVec.eq_of_getLsbD_eq
  intro k hk
  have hm : ∀ k < 16, (0xF000 : Word).getLsbD k = decide (12 ≤ k) := by decide
  simp only [formatXB, BitVec.getLsbD_and, BitVec.getLsbD_cast, BitVec.getLsbD_append, hm k hk, BitVec.getLsbD_zero]
  by_cases h : k < 12
  · simp [h, show ¬ 12 ≤ k by omega]
  · simp [h, show 12 ≤ k by omega, show ¬ k < 8 by omega, show ¬ k - 8 < 4 by omega,
      show k - 8 - 4 = k - 12 by omega]

/-- Format XF holds its top nibble and its function byte (R79). -/
theorem formatXB_mask_kk (n : BitVec 4) (x : RegId) (kk : Byte) :
    formatXB n x kk &&& 0xF0FF = (n ++ 0#4 ++ kk).cast rfl := by
  apply BitVec.eq_of_getLsbD_eq
  intro k hk
  have hm : ∀ k < 16, (0xF0FF : Word).getLsbD k = (decide (k < 8) || decide (12 ≤ k)) := by decide
  simp only [formatXB, BitVec.getLsbD_and, BitVec.getLsbD_cast, BitVec.getLsbD_append, hm k hk, BitVec.getLsbD_zero]
  by_cases h : k < 8
  · simp [h]
  · by_cases h2 : k - 8 < 4
    · simp [h, h2, show ¬ 12 ≤ k by omega]
    · simp [h, h2, show 12 ≤ k by omega]

/-- Format XYH holds its top nibble (R79). -/
theorem formatXYK_mask_n (n : BitVec 4) (x y : RegId) (k : BitVec 4) :
    formatXYK n x y k &&& 0xF000 = (n ++ 0#12).cast rfl := by
  apply BitVec.eq_of_getLsbD_eq
  intro b hb
  have hm : ∀ k < 16, (0xF000 : Word).getLsbD k = decide (12 ≤ k) := by decide
  simp only [formatXYK, BitVec.getLsbD_and, BitVec.getLsbD_cast, BitVec.getLsbD_append, hm b hb, BitVec.getLsbD_zero]
  by_cases h : b < 12
  · simp [h, show ¬ 12 ≤ b by omega]
  · simp [h, show 12 ≤ b by omega, show ¬ b < 4 by omega, show ¬ b - 4 < 4 by omega,
      show ¬ b - 4 - 4 < 4 by omega, show b - 4 - 4 - 4 = b - 12 by omega]

/-- Format XYK holds its top nibble and its function nibble (R79). -/
theorem formatXYK_mask_k (n : BitVec 4) (x y : RegId) (k : BitVec 4) :
    formatXYK n x y k &&& 0xF00F = (n ++ 0#8 ++ k).cast rfl := by
  apply BitVec.eq_of_getLsbD_eq
  intro b hb
  have hm : ∀ k < 16, (0xF00F : Word).getLsbD k = (decide (k < 4) || decide (12 ≤ k)) := by decide
  simp only [formatXYK, BitVec.getLsbD_and, BitVec.getLsbD_cast, BitVec.getLsbD_append, hm b hb, BitVec.getLsbD_zero]
  by_cases h : b < 4
  · simp [h]
  · by_cases h2 : b < 12
    · simp [h, show ¬ 12 ≤ b by omega, show b - 4 < 8 by omega]
    · simp [h, show 12 ≤ b by omega, show ¬ b - 4 < 4 by omega, show ¬ b - 4 - 4 < 4 by omega,
        show ¬ b - 4 < 8 by omega, show b - 4 - 4 - 4 = b - 4 - 8 by omega]

theorem cls : Statement .cls := rfl
theorem ret : Statement .ret := rfl
theorem nop : Statement .nop := rfl
theorem jp (addr : Word) : Statement (.jp addr) := formatA_mask _ _
theorem call (addr : Word) : Statement (.call addr) := formatA_mask _ _
theorem seByte (x : RegId) (kk : Byte) : Statement (.seByte x kk) := formatXB_mask_n _ _ _
theorem sneByte (x : RegId) (kk : Byte) : Statement (.sneByte x kk) := formatXB_mask_n _ _ _
theorem seReg (x y : RegId) : Statement (.seReg x y) := formatXYK_mask_k _ _ _ _
theorem ldByte (x : RegId) (kk : Byte) : Statement (.ldByte x kk) := formatXB_mask_n _ _ _
theorem addByte (x : RegId) (kk : Byte) : Statement (.addByte x kk) := formatXB_mask_n _ _ _
theorem ldReg (x y : RegId) : Statement (.ldReg x y) := formatXYK_mask_k _ _ _ _
theorem or (x y : RegId) : Statement (.or x y) := formatXYK_mask_k _ _ _ _
theorem and (x y : RegId) : Statement (.and x y) := formatXYK_mask_k _ _ _ _
theorem xor (x y : RegId) : Statement (.xor x y) := formatXYK_mask_k _ _ _ _
theorem addReg (x y : RegId) : Statement (.addReg x y) := formatXYK_mask_k _ _ _ _
theorem sub (x y : RegId) : Statement (.sub x y) := formatXYK_mask_k _ _ _ _
theorem shr (x y : RegId) : Statement (.shr x y) := formatXYK_mask_k _ _ _ _
theorem subn (x y : RegId) : Statement (.subn x y) := formatXYK_mask_k _ _ _ _
theorem shl (x y : RegId) : Statement (.shl x y) := formatXYK_mask_k _ _ _ _
theorem sneReg (x y : RegId) : Statement (.sneReg x y) := formatXYK_mask_k _ _ _ _
theorem ldI (addr : Word) : Statement (.ldI addr) := formatA_mask _ _
theorem jpV0 (addr : Word) : Statement (.jpV0 addr) := formatA_mask _ _
theorem rnd (x : RegId) (kk : Byte) : Statement (.rnd x kk) := formatXB_mask_n _ _ _
theorem drw (x y : RegId) (h : Nat) : Statement (.drw x y h) := formatXYK_mask_n _ _ _ _
theorem skp (x : RegId) : Statement (.skp x) := formatXB_mask_kk _ _ _
theorem sknp (x : RegId) : Statement (.sknp x) := formatXB_mask_kk _ _ _
theorem ldVxDt (x : RegId) : Statement (.ldVxDt x) := formatXB_mask_kk _ _ _
theorem ldVxK (x : RegId) : Statement (.ldVxK x) := formatXB_mask_kk _ _ _
theorem ldDtVx (x : RegId) : Statement (.ldDtVx x) := formatXB_mask_kk _ _ _
theorem ldStVx (x : RegId) : Statement (.ldStVx x) := formatXB_mask_kk _ _ _
theorem addI (x : RegId) : Statement (.addI x) := formatXB_mask_kk _ _ _
theorem ldF (x : RegId) : Statement (.ldF x) := formatXB_mask_kk _ _ _
theorem ldB (x : RegId) : Statement (.ldB x) := formatXB_mask_kk _ _ _
theorem ldMemVx (x : RegId) : Statement (.ldMemVx x) := formatXB_mask_kk _ _ _
theorem ldVxMem (x : RegId) : Statement (.ldVxMem x) := formatXB_mask_kk _ _ _

end Sys2Proof.Laws.EncodeMatchesRow
end

