-- ==== Sys2Proof/Laws/Step.lean ====
section
/-! SUPPORT. Everything one step can do (R100, R213): the inversion lemma later proofs cite. -/

namespace Sys2Proof.Machine

/-- A step answers a latched fault, or raises the fetch's fault, or is the fetched operation. -/
theorem step_cases (s : State) :
    (∃ f, s.fault = some f ∧ step s = .fault (.coreFaulted f)) ∨
    (s.fault = none ∧ ∃ f, s.fetch = .error f ∧ step s = .next { s with fault := some f }) ∨
    (s.fault = none ∧ ∃ i, s.fetch = .ok i ∧ step s = exec i s) := by
  cases hf : s.fault with
  | some f => exact .inl ⟨f, rfl, by rw [step, hf]⟩
  | none =>
    cases hi : s.fetch with
    | error f => exact .inr (.inl ⟨rfl, f, rfl, by rw [step, hf, hi]; rfl⟩)
    | ok i => exact .inr (.inr ⟨rfl, i, rfl, by rw [step, hf, hi]⟩)

/-- A step that answers a next state started with no fault latched. -/
theorem fault_none_of_step_next {s t : State} (h : step s = .next t) : s.fault = none := by
  rcases step_cases s with ⟨f, _, h'⟩ | ⟨hn, _⟩ | ⟨hn, _⟩
  · rw [h'] at h; cases h
  · exact hn
  · exact hn

/-- An operation always answers a next state: it completes and leaves the latch alone, or latches a fault and does
nothing else (R102). -/
theorem exec_completes_or_raises (i : Instr) (s : State) :
    (∃ t, exec i s = .next t ∧ t.fault = s.fault) ∨ ∃ f, exec i s = .next { s with fault := some f } := by
  cases i
  case call addr =>
    simp only [exec, execCall]
    split
    · exact .inl ⟨_, rfl, rfl⟩
    · exact .inr ⟨_, rfl⟩
  case ret =>
    simp only [exec, execRet]
    split
    · exact .inl ⟨_, rfl, rfl⟩
    · exact .inr ⟨_, rfl⟩
  case drw x y h =>
    simp only [exec, execDrw]
    rcases withDataRange_cases with ⟨_, h⟩ | ⟨_, _, h⟩ <;> rw [h]
    · exact .inl ⟨_, rfl, rfl⟩
    · exact .inr ⟨_, rfl⟩
  case ldB x =>
    simp only [exec, execLdB]
    rcases withDataRange_cases with ⟨_, h⟩ | ⟨_, _, h⟩ <;> rw [h]
    · exact .inl ⟨_, rfl, rfl⟩
    · exact .inr ⟨_, rfl⟩
  case ldMemVx x =>
    simp only [exec, execLdMemVx]
    rcases withDataRange_cases with ⟨_, h⟩ | ⟨_, _, h⟩ <;> rw [h]
    · exact .inl ⟨_, rfl, rfl⟩
    · exact .inr ⟨_, rfl⟩
  case ldVxMem x =>
    simp only [exec, execLdVxMem]
    rcases withDataRange_cases with ⟨_, h⟩ | ⟨_, _, h⟩ <;> rw [h]
    · exact .inl ⟨_, rfl, by rw [loadRegs_eq]; rfl⟩
    · exact .inr ⟨_, rfl⟩
  case skp x =>
    simp only [exec, execSkp]
    rcases withKey_cases with ⟨_, h⟩ | ⟨_, h⟩ <;> rw [h]
    · exact .inl ⟨_, rfl, by simp⟩
    · exact .inr ⟨_, rfl⟩
  case sknp x =>
    simp only [exec, execSknp]
    rcases withKey_cases with ⟨_, h⟩ | ⟨_, h⟩ <;> rw [h]
    · exact .inl ⟨_, rfl, by simp⟩
    · exact .inr ⟨_, rfl⟩
  case ldVxK x =>
    simp only [exec, execLdVxK]
    split <;> exact .inl ⟨_, rfl, rfl⟩
  case seByte => exact .inl ⟨_, rfl, by simp⟩
  case sneByte => exact .inl ⟨_, rfl, by simp⟩
  case seReg => exact .inl ⟨_, rfl, by simp⟩
  case sneReg => exact .inl ⟨_, rfl, by simp⟩
  all_goals exact .inl ⟨_, rfl, rfl⟩

/-- Where an operation can leave `pc`: in place, one or two instructions on, at a bounded jump target, or past the
call a return came from (R103 to R105). -/
theorem exec_pc_cases {i : Instr} {s t : State} (hw : i.wf = true) (h : exec i s = .next t) :
    t.pc = s.pc ∨ t.pc = s.pc + 2 ∨ t.pc = s.pc + 2 + 2 ∨ t.pc.toNat ≤ 0x10FE ∨
      ∃ k : Fin 16, t.pc = s.stack.get k + 2 := by
  have skip : ∀ c, (s.skipIf c).advance = t → t.pc = s.pc ∨ t.pc = s.pc + 2 ∨ t.pc = s.pc + 2 + 2 ∨
      t.pc.toNat ≤ 0x10FE ∨ ∃ k : Fin 16, t.pc = s.stack.get k + 2 := by
    rintro c rfl
    rcases s.skipIf_advance_pc c with h | h
    · exact .inr (.inl h)
    · exact .inr (.inr (.inl h))
  cases i
  case jp addr =>
    simp only [Instr.wf, addrFits, decide_eq_true_eq] at hw
    cases h
    exact .inr (.inr (.inr (.inl (by simp; omega))))
  case jpV0 addr =>
    simp only [Instr.wf, addrFits, decide_eq_true_eq] at hw
    have := (s.reg 0).isLt
    cases h
    exact .inr (.inr (.inr (.inl (by simp [addByteToWord]; omega))))
  case call addr =>
    simp only [Instr.wf, addrFits, decide_eq_true_eq] at hw
    simp only [exec, execCall] at h
    split at h <;> cases h
    · exact .inr (.inr (.inr (.inl (by simp; omega))))
    · exact .inl rfl
  case ret =>
    simp only [exec, execRet] at h
    split at h <;> cases h
    · exact .inr (.inr (.inr (.inr ⟨⟨s.sp.val - 1, by omega⟩, by simp [Vector.get_eq_getElem]⟩)))
    · exact .inl rfl
  case drw x y n =>
    simp only [exec, execDrw] at h
    rcases withDataRange_next h with rfl | ⟨f, rfl⟩ <;> simp
  case ldB x =>
    simp only [exec, execLdB] at h
    rcases withDataRange_next h with rfl | ⟨f, rfl⟩ <;> simp
  case ldMemVx x =>
    simp only [exec, execLdMemVx] at h
    rcases withDataRange_next h with rfl | ⟨f, rfl⟩ <;> simp
  case ldVxMem x =>
    simp only [exec, execLdVxMem] at h
    rcases withDataRange_next h with rfl | ⟨f, rfl⟩
    · rw [loadRegs_eq]; simp
    · simp
  case skp x =>
    simp only [exec, execSkp] at h
    rcases withKey_cases with ⟨_, h'⟩ | ⟨_, h'⟩ <;> rw [h'] at h <;> cases h
    · exact skip _ rfl
    · exact .inl rfl
  case sknp x =>
    simp only [exec, execSknp] at h
    rcases withKey_cases with ⟨_, h'⟩ | ⟨_, h'⟩ <;> rw [h'] at h <;> cases h
    · exact skip _ rfl
    · exact .inl rfl
  case ldVxK x =>
    simp only [exec, execLdVxK] at h
    split at h <;> cases h <;> simp
  case seByte => cases h; exact skip _ rfl
  case sneByte => cases h; exact skip _ rfl
  case seReg => cases h; exact skip _ rfl
  case sneReg => cases h; exact skip _ rfl
  all_goals cases h; simp [State.drawByte]

/-- Everything an operation can write besides the V registers, `pc` and the latch: who changes memory, the display and
`DRAWN`, `I`, the stack, the timers and the count of draws, and to what (R22, R24, R26 to R30, R33, R34, R55, R146). -/
theorem exec_writes {i : Instr} {s t : State} (h : exec i s = .next t) :
    t.key = s.key ∧
    (t.mem = s.mem ∨ (∃ x, i = .ldB x ∨ i = .ldMemVx x) ∧ ∃ bs, t.mem = s.mem.writeBytes s.i.toNat bs) ∧
    (t.screen = s.screen ∨ i = .cls ∧ t.screen = Vector.replicate 2048 0 ∨
      ∃ x y n, i = .drw x y n ∧ t.screen =
        (drawRows (s.reg x) (s.reg y) 0 (s.mem.readBytes s.i.toNat n) { screen := s.screen, hit := false }).screen) ∧
    (t.drawn = s.drawn ∨ (i = .cls ∨ ∃ x y n, i = .drw x y n) ∧ t.drawn = true) ∧
    (t.i = s.i ∨ (∃ a, i = .ldI a) ∨ (∃ x, i = .addI x) ∨ ∃ x, i = .ldF x) ∧
    (t.sp = s.sp ∨ (∃ a, i = .call a) ∨ i = .ret) ∧
    (t.stack = s.stack ∨ (∃ a, i = .call a) ∧ ∃ h, t.stack = s.stack.set s.sp.val s.pc h) ∧
    (t.dt = s.dt ∨ ∃ x, i = .ldDtVx x) ∧
    (t.st = s.st ∨ ∃ x, i = .ldStVx x) ∧
    (t.rndDraws = s.rndDraws + 1 ∧ (∃ x kk, i = .rnd x kk) ∨
      t.rndDraws = s.rndDraws ∧ ¬ ∃ x kk, i = .rnd x kk) := by
  cases i
  case call a =>
    simp only [exec, execCall] at h
    split at h <;> cases h <;> simp
    right; assumption
  case ret =>
    simp only [exec, execRet] at h
    split at h <;> cases h <;> simp
  case drw x y n =>
    simp only [exec, execDrw] at h
    rcases withDataRange_next h with rfl | ⟨f, rfl⟩ <;> simp
  case ldB x =>
    simp only [exec, execLdB] at h
    rcases withDataRange_next h with rfl | ⟨f, rfl⟩ <;> simp
  case ldMemVx x =>
    simp only [exec, execLdMemVx] at h
    rcases withDataRange_next h with rfl | ⟨f, rfl⟩ <;> simp
  case ldVxMem x =>
    simp only [exec, execLdVxMem] at h
    rcases withDataRange_next h with rfl | ⟨f, rfl⟩
    · rw [loadRegs_eq]; simp
    · simp
  case skp x =>
    simp only [exec, execSkp] at h
    rcases withKey_cases with ⟨_, h'⟩ | ⟨_, h'⟩ <;> rw [h'] at h <;> cases h <;> simp
  case sknp x =>
    simp only [exec, execSknp] at h
    rcases withKey_cases with ⟨_, h'⟩ | ⟨_, h'⟩ <;> rw [h'] at h <;> cases h <;> simp
  case ldVxK x =>
    simp only [exec, execLdVxK] at h
    split at h <;> cases h <;> simp
  all_goals cases h; simp [State.drawByte]

end Sys2Proof.Machine
end

