-- ==== Sys2Proof/Laws/Safety.lean ====
section
/-! SUPPORT. Small lemmas of the terms claims are stated in, and the case split of a session's start. -/

namespace Sys2Proof.Machine

theorem pcMoves_two {s t : State} (h : t.pc = s.pc + 2) : pcMoves 2 s t := by
  simp [pcMoves, h, BitVec.toNat_add]

theorem pcMoves_four {s t : State} (h : t.pc = s.pc + 2 + 2) : pcMoves 4 s t := by
  simp [pcMoves, h, BitVec.toNat_add]

/-- A skip moves `pc` by 4 when its condition holds, else by 2 (R104). -/
theorem pcMoves_skipIf (s : State) (c : Bool) : pcMoves (if c then 4 else 2) s (s.skipIf c).advance := by
  cases c
  · exact pcMoves_two rfl
  · exact pcMoves_four rfl

/-- `onlyChanges` is monotone in the parts named. -/
theorem onlyChanges_mono {ps qs : List Part} {s t : State} (hsub : ∀ p ∈ ps, p ∈ qs) (h : onlyChanges ps s t) :
    onlyChanges qs s t := fun p hp => h p fun hp' => hp (hsub p hp')

/-- A session that starts is reset with its ROM stored at `ROM_BASE` (R243). -/
theorem boot_next {rom : Option (List Byte)} {t : State} (h : boot rom = .next t) :
    ∃ bytes, rom = some bytes ∧ bytes.length ≤ romCapacity ∧ t = State.reset.storeBytes Config.romBase bytes := by
  cases rom with
  | none => cases h
  | some bytes =>
    simp only [boot] at h
    split at h
    · cases h
    · next hlen => cases h; exact ⟨bytes, rfl, Nat.le_of_not_lt hlen, rfl⟩

end Sys2Proof.Machine
end

