-- ==== Sys2Proof/Tests/Slice0.lean ====
section
/-! SUPPORT. The model's own tests. Expected values come from `spec/95_test_vectors.md` (L1, L2; the vector is named) or
from the rule's own example; each runs one step on a small state. Witnesses: states that meet the hypotheses of the
statements. -/

namespace Sys2Proof.Tests

open Sys2Proof Sys2Proof.Machine

/-- The reset state with some registers set. -/
def regs (l : List (RegId × Byte)) : State := l.foldl (fun s p => s.setReg p.1 p.2) State.reset

/-- Run the word `w` as the next instruction of `s` and look at the next state. -/
def stepWord (w : Nat) (s : State) (look : State → Bool) : Bool :=
  match step (s.withFetchWord 16 w) with
  | .next t => look t
  | _ => false

/-- The latch is written, it is `f`, and the rest is as it was (one display cell looked at). -/
def latches (w : Nat) (s : State) (f : FaultInfo) : Bool :=
  stepWord w s fun t => t.fault == some f && t.pc == s.pc && t.v == s.v && t.i == s.i && t.sp == s.sp &&
    t.mem == (s.withFetchWord 16 w).mem && t.drawn == s.drawn && t.readCell 0 == s.readCell 0

/-- `s` with bytes stored at `I = a`. -/
def atI (a : Nat) (bs : List Byte) (s : State) : State := (s.storeBytes a bs).setI (BitVec.ofNat 16 a)

/-- `s` with some keys pressed. -/
def press (ks : List KeyId) (s : State) : State := { s with key := Vector.ofFn fun k => ks.contains k }

/-- `s` with one cell lit. -/
def light (idx : CellIdx) (s : State) : State := { s with screen := s.screen.set idx.val 1 idx.isLt }

/-- A state at the bottom of a full stack. -/
def fullStack : State := { State.reset with sp := 16 }

/-! ### WellFormed refuses ill-formed terms -/

theorem test_wf_jp_address : (Instr.jp 0x1000).wf = false ∧ (Instr.jp 0xFFF).wf = true := by decide
theorem test_wf_call_address : (Instr.call 0x1000).wf = false ∧ (Instr.call 0xFFF).wf = true := by decide
theorem test_wf_ldI_address : (Instr.ldI 0xFFFF).wf = false ∧ (Instr.ldI 0xFFF).wf = true := by decide
theorem test_wf_jpV0_address : (Instr.jpV0 0x1000).wf = false ∧ (Instr.jpV0 0xFFF).wf = true := by decide
theorem test_wf_drw_height : (Instr.drw 0 0 16).wf = false ∧ (Instr.drw 0 0 15).wf = true := by decide

/-! ### Decoding: a word of every constructor, written out from the pattern of R86 -/

theorem test_decode_cls : decodeWord 0b0000000011100000 = .ok .cls := by decide
theorem test_decode_ret : decodeWord 0b0000000011101110 = .ok .ret := by decide
theorem test_decode_nop : decodeWord 0b0000010100000000 = .ok .nop := by decide
theorem test_decode_jp : decodeWord 0b0001001000110100 = .ok (.jp 0x234) := by decide
theorem test_decode_call : decodeWord 0b0010111111111111 = .ok (.call 0xFFF) := by decide
theorem test_decode_seByte : decodeWord 0b0011101001111111 = .ok (.seByte 0xA 0x7F) := by decide
theorem test_decode_sneByte : decodeWord 0b0100000100010011 = .ok (.sneByte 1 0x13) := by decide
theorem test_decode_seReg : decodeWord 0b0101101010110000 = .ok (.seReg 0xA 0xB) := by decide
theorem test_decode_ldByte : decodeWord 0b0110101001000010 = .ok (.ldByte 0xA 0x42) := by decide
theorem test_decode_addByte : decodeWord 0b0111000111111111 = .ok (.addByte 1 0xFF) := by decide
theorem test_decode_ldReg : decodeWord 0b1000010100010000 = .ok (.ldReg 5 1) := by decide
theorem test_decode_or : decodeWord 0b1000000100110001 = .ok (.or 1 3) := by decide
theorem test_decode_and : decodeWord 0b1000000101000010 = .ok (.and 1 4) := by decide
theorem test_decode_xor : decodeWord 0b1000000101010011 = .ok (.xor 1 5) := by decide
theorem test_decode_addReg : decodeWord 0b1000101010110100 = .ok (.addReg 0xA 0xB) := by decide
theorem test_decode_sub : decodeWord 0b1000111100010101 = .ok (.sub 0xF 1) := by decide
theorem test_decode_shr : decodeWord 0b1000000101110110 = .ok (.shr 1 7) := by decide
theorem test_decode_subn : decodeWord 0b1000000111110111 = .ok (.subn 1 0xF) := by decide
theorem test_decode_shl : decodeWord 0b1000101010111110 = .ok (.shl 0xA 0xB) := by decide
theorem test_decode_sneReg : decodeWord 0b1001101010110000 = .ok (.sneReg 0xA 0xB) := by decide
theorem test_decode_ldI : decodeWord 0b1010000100100011 = .ok (.ldI 0x123) := by decide
theorem test_decode_jpV0 : decodeWord 0b1011001100000000 = .ok (.jpV0 0x300) := by decide
theorem test_decode_rnd : decodeWord 0b1100000100001111 = .ok (.rnd 1 0x0F) := by decide
theorem test_decode_drw : decodeWord 0b1101101010111100 = .ok (.drw 0xA 0xB 12) := by decide
theorem test_decode_skp : decodeWord 0b1110010110011110 = .ok (.skp 5) := by decide
theorem test_decode_sknp : decodeWord 0b1110000110100001 = .ok (.sknp 1) := by decide
theorem test_decode_ldVxDt : decodeWord 0b1111001100000111 = .ok (.ldVxDt 3) := by decide
theorem test_decode_ldVxK : decodeWord 0b1111001100001010 = .ok (.ldVxK 3) := by decide
theorem test_decode_ldDtVx : decodeWord 0b1111001100010101 = .ok (.ldDtVx 3) := by decide
theorem test_decode_ldStVx : decodeWord 0b1111001100011000 = .ok (.ldStVx 3) := by decide
theorem test_decode_addI : decodeWord 0b1111000100011110 = .ok (.addI 1) := by decide
theorem test_decode_ldF : decodeWord 0b1111000100101001 = .ok (.ldF 1) := by decide
theorem test_decode_ldB : decodeWord 0b1111000100110011 = .ok (.ldB 1) := by decide
theorem test_decode_ldMemVx : decodeWord 0b1111001001010101 = .ok (.ldMemVx 2) := by decide
theorem test_decode_ldVxMem : decodeWord 0b1111101001100101 = .ok (.ldVxMem 0xA) := by decide

/-- S1 to S3 of L1: the source's own decode examples. -/
theorem test_canonicalise_source_examples :
    canonicalise 0x00 0xE0 = ⟨0x00E0, 0⟩ ∧ canonicalise 0x85 0x10 = ⟨0x0080, 0x51⟩ ∧
    canonicalise 0xF1 0x29 = ⟨0x0F29, 1⟩ := by decide

/-- The unknown words of the L2 decoder table. -/
theorem test_decode_unknown :
    decodeWord 0x0123 = .error (.unknownOpcode 0x23) ∧ decodeWord 0x5121 = .error (.unknownOpcode 0x51) ∧
    decodeWord 0x8AB8 = .error (.unknownOpcode 0x88) ∧ decodeWord 0x9AB1 = .error (.unknownOpcode 0x91) ∧
    decodeWord 0xE5A2 = .error (.unknownOpcode 0xEA2) ∧ decodeWord 0xF100 = .error (.unknownOpcode 0xF00) := by decide

theorem test_decodeBytes_truncated :
    decodeBytes [] = .error .truncated ∧ decodeBytes [0x12] = .error .truncated ∧
    decodeBytes [0x12, 0x34, 0x56] = .ok (.jp 0x234, [0x56]) := by decide

theorem test_decodeTableWord : decodeTableWord 16 0x8AB4 = some (.addReg 0xA 0xB) ∧ decodeTableWord 16 0x5121 = none ∧
    decodeTableWord 8 0x8AE0 = some .cls := by decide

/-- The match word of each of the 35 table rows runs as the first instruction after reset. -/
theorem test_every_row_steps_at_reset :
    ([0x00E0, 0x00EE, 0x0000, 0x1000, 0x2000, 0x3000, 0x4000, 0x5000, 0x6000, 0x7000, 0x8000, 0x8001, 0x8002, 0x8003,
      0x8004, 0x8005, 0x8006, 0x8007, 0x800E, 0x9000, 0xA000, 0xB000, 0xC000, 0xD000, 0xE09E, 0xE0A1, 0xF007, 0xF00A,
      0xF015, 0xF018, 0xF01E, 0xF029, 0xF033, 0xF055, 0xF065] : List Nat).all
      (fun w => (decodeTableWord 16 w).isSome && stepWord w State.reset fun _ => true) = true := by decide

/-! ### Control flow -/

/-- CF13 -/
theorem test_nop : stepWord 0x0500 State.reset (fun t => t.pc == 0x202 && t.reg 5 == 0 && t.i == 0) = true := by decide
/-- R111's example -/
theorem test_jp_holds : stepWord 0x1345 State.reset (fun t => t.pc == 0x345) = true := by decide
/-- CF3 -/
theorem test_call : stepWord 0x2400 State.reset (fun t => t.sp == 1 && t.stack.get 0 == 0x200 && t.pc == 0x400) = true := by
  decide
/-- P5, cycle 17 -/
theorem test_call_overflow : latches 0x2200 fullStack (.stackOverflow 0x200) = true := by decide
/-- CF4: SP and pc move, the entry is kept -/
theorem test_ret : stepWord 0x00EE
    { State.reset with sp := 1, stack := State.reset.stack.set 0 0x200, pc := 0x400 }
    (fun t => t.sp == 0 && t.pc == 0x202 && t.stack.get 0 == 0x200) = true := by decide
/-- F1 -/
theorem test_ret_underflow : latches 0x00EE State.reset (.stackUnderflow 0x200) = true := by decide
/-- CF6: not reduced to 12 bits -/
theorem test_jpV0 : stepWord 0xBFFF (regs [(0, 0xFF), (0xF, 1)]) (fun t => t.pc == 0x10FE) = true := by decide
/-- CF7 -/
theorem test_seByte : (stepWord 0x3105 (regs [(1, 5)]) (fun t => t.pc == 0x204) &&
    stepWord 0x3105 (regs [(1, 6)]) (fun t => t.pc == 0x202)) = true := by decide
/-- CF8 -/
theorem test_sneByte : (stepWord 0x4105 (regs [(1, 5)]) (fun t => t.pc == 0x202) &&
    stepWord 0x4105 (regs [(1, 6)]) (fun t => t.pc == 0x204)) = true := by decide
/-- CF10 -/
theorem test_seReg : (stepWord 0x5120 (regs [(1, 3), (2, 3)]) (fun t => t.pc == 0x204) &&
    stepWord 0x5120 (regs [(1, 3), (2, 4)]) (fun t => t.pc == 0x202)) = true := by decide
/-- CF11 -/
theorem test_sneReg : (stepWord 0x9120 (regs [(1, 3), (2, 3)]) (fun t => t.pc == 0x202) &&
    stepWord 0x9120 (regs [(1, 3), (2, 4)]) (fun t => t.pc == 0x204)) = true := by decide

/-! ### Registers and arithmetic -/

/-- A1 -/
theorem test_ldByte : stepWord 0x6A42 State.reset (fun t => t.reg 0xA == 0x42 && t.pc == 0x202) = true := by decide
/-- A2 -/
theorem test_addByte_no_carry : stepWord 0x71FF (regs [(1, 2)]) (fun t => t.reg 1 == 1 && t.reg 0xF == 0) = true := by decide
/-- A4 -/
theorem test_ldReg : stepWord 0x8120 (regs [(2, 0xF0), (0xF, 7)]) (fun t => t.reg 1 == 0xF0 && t.reg 0xF == 7) = true := by
  decide
/-- A5 -/
theorem test_or : stepWord 0x8131 (regs [(1, 0xF0), (3, 0x0F), (0xF, 7)])
    (fun t => t.reg 1 == 0xFF && t.reg 0xF == 7) = true := by decide
/-- A6 -/
theorem test_and : stepWord 0x8142 (regs [(1, 0xFF), (4, 0x3C), (0xF, 7)])
    (fun t => t.reg 1 == 0x3C && t.reg 0xF == 7) = true := by decide
/-- A7 -/
theorem test_xor : stepWord 0x8153 (regs [(1, 0x3C), (5, 0xFF), (0xF, 7)])
    (fun t => t.reg 1 == 0xC3 && t.reg 0xF == 7) = true := by decide
/-- S4 -/
theorem test_addReg_carry : stepWord 0x8124 (regs [(1, 0xFE), (2, 3)]) (fun t => t.reg 1 == 1 && t.reg 0xF == 1) = true := by
  decide
/-- A12, A13 -/
theorem test_addReg_vf : (stepWord 0x8F14 (regs [(0xF, 0xFF), (1, 1)]) (fun t => t.reg 0xF == 1) &&
    stepWord 0x81F4 (regs [(1, 0x10), (0xF, 0xF0)]) (fun t => t.reg 1 == 0 && t.reg 0xF == 1)) = true := by decide
/-- S6, A15 -/
theorem test_sub : (stepWord 0x8125 (regs [(1, 4), (2, 5)]) (fun t => t.reg 1 == 0xFF && t.reg 0xF == 0) &&
    stepWord 0x8125 (regs [(1, 7), (2, 7), (0xF, 1)]) (fun t => t.reg 1 == 0 && t.reg 0xF == 0)) = true := by decide
/-- A16, A17 -/
theorem test_sub_vf : (stepWord 0x8F15 (regs [(0xF, 5), (1, 3)]) (fun t => t.reg 0xF == 0xFE) &&
    stepWord 0x81F5 (regs [(1, 5), (0xF, 3)]) (fun t => t.reg 1 == 4 && t.reg 0xF == 1)) = true := by decide
/-- A21: `y` is ignored -/
theorem test_shr : stepWord 0x8176 (regs [(1, 1), (7, 0x80)]) (fun t => t.reg 1 == 0 && t.reg 0xF == 1) = true := by decide
/-- A22 -/
theorem test_shr_vf : stepWord 0x8F06 (regs [(0xF, 3)]) (fun t => t.reg 0xF == 0) = true := by decide
/-- A23, A24 -/
theorem test_subn : (stepWord 0x8127 (regs [(1, 4), (2, 5)]) (fun t => t.reg 1 == 1 && t.reg 0xF == 1) &&
    stepWord 0x8127 (regs [(1, 5), (2, 4)]) (fun t => t.reg 1 == 0xFF && t.reg 0xF == 0)) = true := by decide
/-- A26, A27 -/
theorem test_subn_vf : (stepWord 0x8F17 (regs [(0xF, 2), (1, 5)]) (fun t => t.reg 0xF == 4) &&
    stepWord 0x81F7 (regs [(1, 2), (0xF, 5)]) (fun t => t.reg 1 == 0xFF && t.reg 0xF == 1)) = true := by decide
/-- A28 -/
theorem test_shl : stepWord 0x810E (regs [(1, 0x81)]) (fun t => t.reg 1 == 2 && t.reg 0xF == 1) = true := by decide
/-- A30 -/
theorem test_shl_vf : stepWord 0x8F0E (regs [(0xF, 0x81)]) (fun t => t.reg 0xF == 2) = true := by decide
/-- A32, with the byte that was drawn given -/
theorem test_rndWith : (match rndWith 1 0x0F (0xAB, State.reset) with
    | .next t => t.reg 1 == 0x0B && t.pc == 0x202
    | _ => false) = true := by decide
/-- RND draws one byte (R146) -/
theorem test_rnd_draws_one : stepWord 0xC100 (regs [(1, 5)]) (fun t => t.rndDraws == 1 && t.pc == 0x202) = true := by decide

/-! ### Index register and memory -/

/-- M1 -/
theorem test_ldI : stepWord 0xA123 State.reset (fun t => t.i == 0x123 && t.pc == 0x202) = true := by decide
/-- M2, M3 -/
theorem test_addI : (stepWord 0xF11E ((regs [(1, 2)]).setI 0xFFFF) (fun t => t.i == 1 && t.reg 0xF == 0) &&
    stepWord 0xF11E ((regs [(1, 1)]).setI 0x0FFF) (fun t => t.i == 0x1000)) = true := by decide
/-- M4, M5 -/
theorem test_ldF : (stepWord 0xF729 (regs [(7, 0x0A)]) (fun t => t.i == 0x32) &&
    stepWord 0xF129 (regs [(1, 0xFF)]) (fun t => t.i == 0x4FB)) = true := by decide
/-- S8 -/
theorem test_ldB : stepWord 0xF133 ((regs [(1, 0xFE)]).setI 0x300) (fun t => t.readMem 0x300 == 2 &&
    t.readMem 0x301 == 5 && t.readMem 0x302 == 4 && t.i == 0x300) = true := by decide
/-- M8 -/
theorem test_ldB_out_of_bounds : latches 0xF233 (State.reset.setI 0xFFE) (.memoryOutOfBounds 0x200 0x1000) = true := by
  decide
/-- R164's example -/
theorem test_ldMemVx : stepWord 0xF255 ((regs [(0, 1), (1, 2), (2, 3), (3, 9)]).setI 0x300) (fun t =>
    t.readMem 0x300 == 1 && t.readMem 0x301 == 2 && t.readMem 0x302 == 3 && t.readMem 0x303 == 0 && t.i == 0x300) = true := by
  decide
/-- M10, M11 -/
theorem test_ldMemVx_top : (stepWord 0xF055 ((regs [(0, 9)]).setI 0xFFF) (fun t => t.readMem 0xFFF == 9) &&
    latches 0xF155 (State.reset.setI 0xFFF) (.memoryOutOfBounds 0x200 0x1000)) = true := by decide
/-- M12 -/
theorem test_ldVxMem : stepWord 0xF265 (atI 0x300 [7, 8, 9] (regs [(3, 0x33)])) (fun t => t.reg 0 == 7 && t.reg 1 == 8 &&
    t.reg 2 == 9 && t.reg 3 == 0x33 && t.i == 0x300) = true := by decide
/-- R57: the lowest bad address is `I` itself when it is past the end -/
theorem test_ldVxMem_out_of_bounds : latches 0xF165 (State.reset.setI 0x1234) (.memoryOutOfBounds 0x200 0x1234) = true := by
  decide
/-- The memory stays canonical: writing the reset byte back removes the entry (log 5). -/
theorem test_memory_canonical : Memory.write (Memory.write [] 0 5) 0 0xF0 = [] ∧
    Memory.write (Memory.write [] 7 1) 3 2 = [(3, 2), (7, 1)] ∧ Memory.write [] 0x1000 5 = [] := by decide
/-- R242: the rows of glyphs 0 and F, and the first byte past the font. -/
theorem test_font : (State.reset.mem.readBytes 0 5, State.reset.mem.readBytes 0x4B 6) =
    ([0xF0, 0x90, 0x90, 0x90, 0xF0], [0xF0, 0x80, 0xF0, 0x80, 0x80, 0x00]) := by decide

/-! ### Display -/

/-- DS1 -/
theorem test_cls : stepWord 0x00E0 (light 5 (regs [(0xF, 9)])) (fun t => t.readCell 5 == 0 && t.drawn && t.reg 0xF == 9) =
    true := by decide
/-- S9: glyph 0 at (8, 0), then the second draw of P3 -/
theorem test_drw_glyph : stepWord 0xD565 (regs [(5, 8)]) (fun t => t.reg 0xF == 0 && t.drawn && t.readCell 8 == 1 &&
    t.readCell 11 == 1 && t.readCell 12 == 0 && t.readCell 72 == 1 && t.readCell 73 == 0 &&
    stepWord 0xD565 t (fun u => u.reg 0xF == 1 && u.readCell 8 == 0 && u.readCell 72 == 0)) = true := by decide
/-- DS2, DS3: the wrap of each coordinate -/
theorem test_drw_wrap : (stepWord 0xD121 (atI 0x300 [0xFF] (regs [(1, 0x3E)])) (fun t => t.readCell 62 == 1 &&
      t.readCell 63 == 1 && t.readCell 0 == 1 && t.readCell 5 == 1 && t.readCell 6 == 0 && t.readCell 64 == 0) &&
    stepWord 0xD122 (atI 0x300 [0x80, 0x80] (regs [(2, 0x1F)])) (fun t => t.readCell 1984 == 1 && t.readCell 0 == 1)) =
    true := by decide +kernel
/-- DS5, DS6: erasure, and an origin in `VF` -/
theorem test_drw_collision : (stepWord 0xD121 (light 0 (atI 0x300 [0xC0] State.reset)) (fun t => t.readCell 0 == 0 &&
      t.readCell 1 == 1 && t.reg 0xF == 1) &&
    stepWord 0xDFF1 (atI 0x300 [0x80] (regs [(0xF, 0x0A)])) (fun t => t.readCell 650 == 1 && t.reg 0xF == 0)) = true := by
  decide +kernel
/-- DS8, DS7 -/
theorem test_drw_bounds : (latches 0xD123 (State.reset.setI 0xFFE) (.memoryOutOfBounds 0x200 0x1000) &&
    stepWord 0xD120 ((regs [(0xF, 5)]).setI 0x1000) (fun t => t.reg 0xF == 0 && t.drawn)) = true := by decide
/-- R184's clause "the second draw sets `VF = 1` if the sprite has any set bit" fails by R182 on a lit cell (log 20). -/
theorem test_second_draw_on_lit_cell : stepWord 0xD121 (light 0 (atI 0x300 [0x80] State.reset)) (fun t =>
    t.reg 0xF == 1 && stepWord 0xD121 t (fun u => u.reg 0xF == 0 && u.readCell 0 == 1)) = true := by decide

/-! ### Keypad and timers -/

/-- K1 -/
theorem test_skp : (stepWord 0xE19E (regs [(1, 7)]) (fun t => t.pc == 0x202) &&
    stepWord 0xE19E (press [7] (regs [(1, 7)])) (fun t => t.pc == 0x204)) = true := by decide
/-- K3 -/
theorem test_skp_out_of_range : latches 0xE19E (regs [(1, 0x10)]) (.keyOutOfRange 0x200 0x10) = true := by decide
/-- K2 -/
theorem test_sknp : (stepWord 0xE1A1 (regs [(1, 7)]) (fun t => t.pc == 0x204) &&
    stepWord 0xE1A1 (press [7] (regs [(1, 7)])) (fun t => t.pc == 0x202)) = true := by decide
/-- R193's example -/
theorem test_ldVxDt : stepWord 0xF307 { State.reset with dt := 0x3C } (fun t => t.reg 3 == 0x3C && t.dt == 0x3C) = true := by
  decide
/-- R196's example -/
theorem test_ldDtVx : stepWord 0xF315 (regs [(3, 0x3C)]) (fun t => t.dt == 0x3C && t.st == 0) = true := by decide
/-- R197's example -/
theorem test_ldStVx : stepWord 0xF318 (regs [(3, 0x10)]) (fun t => t.st == 0x10 && t.dt == 0) = true := by decide
/-- K5 -/
theorem test_ldVxK : stepWord 0xF30A (press [9, 2] State.reset) (fun t => t.reg 3 == 2 && t.pc == 0x202) = true := by decide
/-- K4: WAITING, no state changes -/
theorem test_ldVxK_waits : stepWord 0xF30A State.reset (fun t => t.pc == 0x200 && t.reg 3 == 0) = true ∧
    cycleOutcome (State.reset.withFetchWord 16 0xF30A) = some .waiting := by decide

/-! ### Faults, boot, the host -/

/-- F2, F3 -/
theorem test_unknown_opcode : (latches 0x0123 State.reset (.unknownOpcode 0x200 0x0123 0x0023) &&
    latches 0x5121 State.reset (.unknownOpcode 0x200 0x5121 0x0051)) = true := by decide
/-- The fetch bound of L2: 0xFFE is in range, 0xFFF is not -/
theorem test_fetch_bound : (stepWord 0x6A42 (State.reset.setPc 0xFFE) (fun t => t.reg 0xA == 0x42 && t.pc == 0x1000) &&
    latches 0x6A42 (State.reset.setPc 0xFFF) (.decodeOutOfBounds 0xFFF)) = true := by decide
/-- F4 -/
theorem test_latched_fault_stops : (match step { State.reset with fault := some (.stackUnderflow 0x200) } with
    | .fault f => f == .coreFaulted (.stackUnderflow 0x200) && f.code == 4
    | _ => false) = true := by decide
/-- R243: the ROM is at 0x200, and 0 above it -/
theorem test_boot : (match boot (some [0x12, 0x34]) with
    | .next t => t.readMem 0x200 == 0x12 && t.readMem 0x201 == 0x34 && t.readMem 0x202 == 0 && t.pc == 0x200
    | _ => false) = true := by decide
/-- K7, K8: one tick, and the stop at zero -/
theorem test_tick : ((hostAct .timerTick { State.reset with dt := 0x3C }).dt, (hostAct .timerTick { State.reset with st := 1 }).readTimers) =
    (0x3B, (0, 0)) := by decide
theorem test_updateKeys : ((press [1, 2] State.reset).updateKeys
    (Vector.ofFn fun k => if k = 1 then some false else if k = 3 then some true else none)).key =
    (press [2, 3] State.reset).key := by decide
/-- Codes of R210 -/
theorem test_fault_codes : State.reset.faultCode = 0 ∧ { State.reset with fault := some (.keyOutOfRange 0 0) }.faultCode = 6 ∧
    Fault.romLoadFailure.code = 7 := by decide

/-! ### Witnesses: the hypotheses of each statement are met together -/

theorem reset_inv : State.reset.Inv :=
  ⟨Memory.wf_nil, fun k => by left; simp [State.reset, Vector.get_eq_getElem]⟩
theorem reset_pcBounded : State.reset.PcBounded := ⟨by decide, by decide⟩
/-- BootLoadsTheRomOrStartsNoSession: the largest ROM that fits, and one byte more (F5). -/
theorem witness_boot : (List.replicate 3584 (0 : Byte)).length ≤ 3584 ∧ 3584 < (List.replicate 3585 (0 : Byte)).length :=
  ⟨by rw [List.length_replicate], by rw [List.length_replicate]; decide⟩
/-- DecodeOfEncodeIsTheInstruction, at the top of each checked field. -/
theorem witness_wf : (Instr.jp 0xFFF).wf = true ∧ (Instr.drw 0xF 0xF 15).wf = true := by decide
/-- EncodeOfDecodeIsTheWord, both clauses at their boundary. -/
theorem witness_reencode : (16 ≤ (0x10 : Byte).toNat ∧ decode 0x10 0x00 = .ok (.jp 0)) ∧ (0x0F : Byte).toNat < 16 := by decide
/-- CanonicalisationByTopNibble: a byte for each clause. -/
theorem witness_nibbles : (0x5F : Byte).toNat / 16 = 5 ∧ (0xE0 : Byte).toNat / 16 = 0xE ∧ (0x0F : Byte).toNat / 16 = 0 ∧
    (0xDF : Byte).toNat / 16 = 0xD := by decide
/-- EveryPrimaryEncodingDecodes and AliasWordsRunWithOperandZero. -/
theorem witness_fields : (0xFFF : Word).toNat < 0x1000 ∧ (15 : Nat) < 16 ∧ (0x0F : Byte).toNat < 16 := by decide
/-- StepRunsTheInstructionAtPc, at the last fetchable address. -/
theorem witness_step_runs : let s := (State.reset.setPc 0xFFE).withFetchWord 16 0x6A42
    s.fault = none ∧ s.pc.toNat + 1 < 4096 ∧
      decode (s.readMem s.pc.toNat) (s.readMem (s.pc.toNat + 1)) = .ok (.ldByte 0xA 0x42) := by decide
/-- FetchAndDispatchFaults: each clause, where they meet. -/
theorem witness_fetch_faults :
    ((State.reset.setPc 0xFFF).fault = none ∧ 4096 ≤ (State.reset.setPc 0xFFF).pc.toNat + 1) ∧
    (let s := (State.reset.setPc 0xFFE).withFetchWord 16 0x5121
     s.fault = none ∧ s.pc.toNat + 1 < 4096 ∧
      decode (s.readMem s.pc.toNat) (s.readMem (s.pc.toNat + 1)) = .error (.unknownOpcode 0x51)) := by decide
/-- FaultsArePreciseAndSticky: a step that latches, and a latched state. -/
theorem witness_latching_step : (match step (State.reset.withFetchWord 16 0x00EE) with
    | .next t => t.fault == some (.stackUnderflow 0x200)
    | _ => false) = true ∧ { State.reset with fault := some (.stackUnderflow 0x200) }.fault ≠ none := by decide
/-- EveryCycleHasOneOfThreeOutcomes: states of each clause. -/
theorem witness_outcomes : State.reset.fault = none ∧ cycleOutcome State.reset = some .executed ∧
    cycleOutcome (State.reset.withFetchWord 16 0x00EE) = some (.faulted (.stackUnderflow 0x200)) ∧
    { State.reset with fault := some (.stackUnderflow 0x200) }.fault = some (.stackUnderflow 0x200) := by decide
/-- StepKeepsTheInvariant and StepKeepsThePcBound. -/
theorem witness_invariants : State.reset.Inv ∧ State.reset.PcBounded ∧ step State.reset = .next State.reset.advance :=
  ⟨reset_inv, reset_pcBounded, rfl⟩
/-- SessionsStartInTheInvariants: a session that starts. -/
theorem witness_session : ∃ t, boot (some [0x12, 0x00]) = .next t := ⟨_, rfl⟩
/-- CanonicalMemoriesThatReadAlikeAreEqual: a memory built in two orders. -/
theorem witness_canonical : Memory.wf (Memory.write (Memory.write [] 7 1) 3 2) ∧
    Memory.wf (Memory.write (Memory.write [] 3 2) 7 1) ∧
    (∀ a, a < 4096 → Memory.read (Memory.write (Memory.write [] 7 1) 3 2) a =
      Memory.read (Memory.write (Memory.write [] 3 2) 7 1) a) := ⟨by decide, by decide, fun _ _ => rfl⟩
/-- OnlyLdBAndLdMemWriteMemory: an instruction that changes a byte. -/
theorem witness_memory_write : ∃ t, exec (.ldB 1) ((regs [(1, 9)]).setI 0x300) = .next t ∧
    t.readMem 0x302 ≠ ((regs [(1, 9)]).setI 0x300).readMem 0x302 := ⟨_, rfl, by decide⟩
/-- DisplayAndDrawFlagBelongToClsAndDrw: a draw that lights a cell, completed; and an instruction that is neither. -/
theorem witness_display_write : State.reset.fault = none ∧
    (∃ t, exec (.drw 0 0 1) State.reset = .next t ∧ t.fault = none ∧ t.readCell 0 ≠ State.reset.readCell 0) ∧
    ∃ t, exec .nop State.reset = .next t := ⟨rfl, ⟨_, rfl, by decide⟩, ⟨_, rfl⟩⟩
/-- SpecialStateHasOnlyItsWriters: an instruction that changes each of `I`, `SP` and the stack, `DT`, `ST`. -/
theorem witness_special_writes :
    (∃ t, exec (.ldI 5) State.reset = .next t ∧ t.i ≠ State.reset.i) ∧
    (∃ t, exec (.call 0x300) State.reset = .next t ∧ t.sp ≠ State.reset.sp ∧ t.stack.get 0 ≠ State.reset.stack.get 0) ∧
    (∃ t, exec (.ldDtVx 1) (regs [(1, 9)]) = .next t ∧ t.dt ≠ (regs [(1, 9)]).dt) ∧
    (∃ t, exec (.ldStVx 1) (regs [(1, 9)]) = .next t ∧ t.st ≠ (regs [(1, 9)]).st) :=
  ⟨⟨_, rfl, by decide⟩, ⟨_, rfl, by decide⟩, ⟨_, rfl, by decide⟩, ⟨_, rfl, by decide⟩⟩
/-- CallPushesItsOwnAddress: the last call that fits, and a full stack. -/
theorem witness_call : ({ State.reset with sp := 15 } : State).sp.val < 16 ∧ fullStack.sp.val = 16 := by decide
/-- RetResumesAfterTheCall: one entry, a full stack, and an empty one. -/
theorem witness_ret : ({ State.reset with sp := 1 } : State).sp.val = (0 : Fin 16).val + 1 ∧
    fullStack.sp.val = (15 : Fin 16).val + 1 ∧ State.reset.sp.val = 0 := by decide
/-- CallsReturnInReverseOrder. -/
theorem witness_lifo : ({ State.reset with sp := 14 } : State).sp.val < 15 := by decide
/-- AddRegWritesTheCarryLast, SubtractionsWriteTheStrictFlagFirst, ShiftsWriteTheBitShiftedOutFirst: a destination that is
not `VF`. -/
theorem witness_not_vf : (0xE : RegId) ≠ 0xF := by decide
/-- LdBStoresTheDecimalDigits, LdMemStoresTheRegisters, LdVxMemLoadsTheRegisters: each clause where they meet. -/
theorem witness_data_range : State.reset.mem.wf ∧
    (State.reset.setI 0xFFD).i.toNat + 2 < 4096 ∧ 4096 ≤ (State.reset.setI 0xFFE).i.toNat + 2 ∧
    (State.reset.setI 0xFF0).i.toNat + (0xF : RegId).val < 4096 ∧ 4096 ≤ (State.reset.setI 0xFF1).i.toNat + (0xF : RegId).val :=
  by decide
/-- StoredBytesAreTheBytesFetched. -/
theorem witness_stored_fetch : State.reset.mem.wf ∧ 1 ≤ (1 : RegId).val ∧
    (State.reset.setI 0xFFE).i.toNat + (1 : RegId).val < 4096 := by decide
/-- DrwXorsTheSpriteAndReportsErasure: both clauses where they meet, with a covered cell, lit and dark, and one not
covered. -/
theorem witness_drw : (15 < 16 ∧ dataFits 15 (State.reset.setI 0xFF1) ∧ ¬ dataFits 15 (State.reset.setI 0xFF2)) ∧
    spriteCovers State.reset 0 0 5 0 ∧ (light 0 State.reset).readCell 0 = 1 ∧ State.reset.readCell 0 = 0 ∧
    ¬ spriteCovers State.reset 0 0 0 0 := by
  refine ⟨⟨by decide, .inr (by decide), ?_⟩, ⟨0, by decide, 0, by decide, by decide, by decide⟩, by decide, by decide, ?_⟩
  · rintro (h | h) <;> revert h <;> decide
  · rintro ⟨r, hr, -⟩
    omega
/-- DrawingTwiceRestoresTheDisplay: the same registers name the same origin again. -/
theorem witness_draw_twice : 5 < 16 ∧ State.reset.Inv ∧ dataFits 5 State.reset ∧
    ∃ t, exec (.drw 0 1 5) State.reset = .next t ∧ t.reg 0 = State.reset.reg 0 ∧ t.reg 1 = State.reset.reg 1 :=
  ⟨by decide, reset_inv, .inr (by decide), _, rfl, by decide, by decide⟩
/-- KeySkipsTestTheKeyNamedByVx: the highest key, and the first value that names none. -/
theorem witness_keys : ((regs [(1, 15)]).reg 1).toNat = (15 : KeyId).val ∧ 15 < ((regs [(1, 16)]).reg 1).toNat := by decide
/-- LdVxKTakesTheLowestKeyOrHolds: keys 2 and 9 pressed, and none. -/
theorem witness_lowest_key : (press [9, 2] State.reset).pressed 2 = true ∧
    (∀ j : KeyId, j < 2 → (press [9, 2] State.reset).pressed j = false) ∧ (∀ k : KeyId, State.reset.pressed k = false) := by
  decide

end Sys2Proof.Tests
end

section
/-! The state after reset, observed through the accessors (R39, R240, R242), and obligation O1. -/

namespace Sys2Proof.Machine

/-! ### The reset contents of memory -/

@[simp] theorem length_font : font.length = 80 := rfl

/-- Above the font table the reset contents are 0 (R39, R242). -/
theorem resetByte_of_ge {a : Nat} (h : 80 ≤ a) : resetByte a = 0 := by
  rw [resetByte, List.getD_eq_default _ _ (by simpa using h)]

/-! ### Each accessor at reset -/

@[simp] theorem State.reset_reg (r : RegId) : State.reset.reg r = 0 := by
  simp [State.reg, State.reset, Vector.get_eq_getElem]

@[simp] theorem State.reset_stack_get (k : Fin 16) : State.reset.stack.get k = 0 := by
  simp [State.reset, Vector.get_eq_getElem]

@[simp] theorem State.reset_pressed (k : KeyId) : State.reset.pressed k = false := by
  simp [State.pressed, State.reset, Vector.get_eq_getElem]

@[simp] theorem State.reset_readCell (idx : CellIdx) : State.reset.readCell idx = 0 := by
  simp [State.readCell, State.reset, Vector.get_eq_getElem]

@[simp] theorem State.reset_readMem (a : Nat) : State.reset.readMem a = resetByte a :=
  Memory.read_nil a

/-- Settles O1: the scalar rows of R39 are fields of `State.reset`, each vector is a replicate, and the memory lists
nothing, so that every address reads as `resetByte`. -/
theorem resetHoldsTheTableOfR39 : Obligations.ResetHoldsTheTableOfR39 := by
  unfold Obligations.ResetHoldsTheTableOfR39
  refine ⟨State.reset_reg, rfl, rfl, rfl, State.reset_stack_get, rfl, rfl, State.reset_pressed, State.reset_readCell,
    rfl, rfl, ?font, ?above⟩
  case font =>
    intro a _
    rw [State.reset_readMem, resetByte]
  case above =>
    intro a ha _
    rw [State.reset_readMem, resetByte_of_ge ha]

end Sys2Proof.Machine
end

section
/-! The decoder's canonicalisation in numbers (R73 to R77), one equation per group of top nibbles, and obligation O5. -/

namespace Sys2Proof

/-! ### Nibbles and joined fields, as numbers -/

/-- The low nibble of a number of any width. -/
theorem nat_and_0xF (a : Nat) : a &&& 0xF = a % 16 := Nat.and_two_pow_sub_one_eq_mod a 4

/-- The high nibble of a number below 256: masking before the shift is masking after it. -/
theorem nat_and_0xF0_shiftRight {a : Nat} (h : a < 256) : (a &&& 0xF0) >>> 4 = a / 16 := by
  have hmask : a / 16 &&& 0xF = a / 16 := by rw [nat_and_0xF]; omega
  rw [Nat.shiftRight_and_distrib, Nat.shiftRight_eq_div_pow]
  exact hmask

theorem toNat_setWidth_byte (b : Byte) : (b.setWidth 16 : Word).toNat = b.toNat :=
  BitVec.toNat_setWidth_of_le (by decide)

theorem toNat_topNibble (hi : Byte) : ((hi &&& 0xF0) >>> 4).toNat = hi.toNat / 16 := by
  rw [BitVec.toNat_ushiftRight, BitVec.toNat_and]
  exact nat_and_0xF0_shiftRight hi.isLt

/-- The tests of `canonicalise` are tests of the top nibble of `hi` (R73). -/
theorem topNibble_eq_iff (hi : Byte) (k : Word) :
    (((hi &&& 0xF0) >>> 4).setWidth 16 : Word) = k ↔ hi.toNat / 16 = k.toNat := by
  rw [← BitVec.toNat_inj, toNat_setWidth_byte, toNat_topNibble]

theorem toNat_lowNibble (b : Byte) : ((b.setWidth 16 : Word) &&& 0xF).toNat = b.toNat % 16 := by
  rw [BitVec.toNat_and, toNat_setWidth_byte]
  exact nat_and_0xF b.toNat

theorem toNat_highNibble (b : Byte) : (((b.setWidth 16 : Word) &&& 0xF0) >>> 4).toNat = b.toNat / 16 := by
  rw [BitVec.toNat_ushiftRight, BitVec.toNat_and, toNat_setWidth_byte]
  exact nat_and_0xF0_shiftRight b.isLt

/-- Two fields put side by side: neither loses a bit nor overlaps the other. -/
theorem toNat_shiftLeft_or {a b : Word} {k : Nat} (ha : a.toNat * 2 ^ k < 2 ^ 16) (hb : b.toNat < 2 ^ k) :
    ((a <<< k) ||| b).toNat = a.toNat * 2 ^ k + b.toNat := by
  rw [BitVec.toNat_or, BitVec.toNat_shiftLeft, Nat.shiftLeft_eq, Nat.mod_eq_of_lt ha, Nat.mul_comm,
    Nat.two_pow_add_eq_or_of_lt hb]

/-! ### The branches of `canonicalise` -/

/-- Top nibbles 5, 8 and 9 (R74). -/
theorem canonicalise_of_xyk {hi lo : Byte} (h : hi.toNat / 16 = 5 ∨ hi.toNat / 16 = 8 ∨ hi.toNat / 16 = 9) :
    (canonicalise hi lo).opcodeClass.toNat = hi.toNat / 16 * 16 + lo.toNat % 16 ∧
      (canonicalise hi lo).operand.toNat = hi.toNat % 16 * 16 + lo.toNat / 16 := by
  have := lo.isLt
  simp only [canonicalise, topNibble_eq_iff, BitVec.reduceToNat]
  rw [if_pos h]
  constructor
  · rw [toNat_shiftLeft_or] <;> simp only [toNat_setWidth_byte, toNat_topNibble, toNat_lowNibble] <;> omega
  · rw [toNat_shiftLeft_or] <;> simp only [toNat_lowNibble, toNat_highNibble] <;> omega

/-- Top nibbles E and F (R75). -/
theorem canonicalise_of_xf {hi lo : Byte} (h : hi.toNat / 16 = 0xE ∨ hi.toNat / 16 = 0xF) :
    (canonicalise hi lo).opcodeClass.toNat = hi.toNat / 16 * 256 + lo.toNat ∧
      (canonicalise hi lo).operand.toNat = hi.toNat % 16 := by
  have := lo.isLt
  simp only [canonicalise, topNibble_eq_iff, BitVec.reduceToNat]
  rw [if_neg (by omega), if_pos h]
  constructor
  · rw [toNat_shiftLeft_or] <;> simp only [toNat_setWidth_byte, toNat_topNibble] <;> omega
  · exact toNat_lowNibble hi

/-- Top nibble 0: the low nibble of `hi` is discarded (R76). -/
theorem canonicalise_of_zero {hi lo : Byte} (h : hi.toNat / 16 = 0) :
    (canonicalise hi lo).opcodeClass.toNat = lo.toNat ∧ (canonicalise hi lo).operand.toNat = 0 := by
  simp only [canonicalise, topNibble_eq_iff, BitVec.reduceToNat]
  rw [if_neg (by omega), if_neg (by omega), if_pos h]
  exact ⟨toNat_setWidth_byte lo, rfl⟩

/-- Every other top nibble (R77). -/
theorem canonicalise_of_other {hi lo : Byte}
    (h : hi.toNat / 16 ∉ [0x0, 0x5, 0x8, 0x9, 0xE, 0xF]) :
    (canonicalise hi lo).opcodeClass.toNat = hi.toNat / 16 ∧
      (canonicalise hi lo).operand.toNat = hi.toNat % 16 * 256 + lo.toNat := by
  have := lo.isLt
  simp only [List.mem_cons, List.not_mem_nil, or_false, not_or] at h
  simp only [canonicalise, topNibble_eq_iff, BitVec.reduceToNat]
  rw [if_neg (by omega), if_neg (by omega), if_neg (by omega)]
  refine ⟨(toNat_setWidth_byte _).trans (toNat_topNibble hi), ?_⟩
  rw [toNat_shiftLeft_or] <;> simp only [toNat_lowNibble, toNat_setWidth_byte] <;> omega

/-- Settles O5: each clause is the equation of one branch of `canonicalise`. -/
theorem canonicalisationByTopNibble : Obligations.CanonicalisationByTopNibble := by
  unfold Obligations.CanonicalisationByTopNibble
  intro hi lo
  refine ⟨canonicalise_of_xyk, canonicalise_of_xf, canonicalise_of_zero, fun h => canonicalise_of_other ?_⟩
  simp only [List.mem_cons, List.not_mem_nil, or_false]
  omega

end Sys2Proof
end

section
/-! The faults of the fetch and of the dispatch, up to the step that latches them (R72, R83, R213), and obligation
O11. -/

namespace Sys2Proof

/-- The class an unknown word is reported with is the one the lookup was asked for (R83). -/
theorem opcodeClass_of_decode_unknownOpcode {hi lo : Byte} {c : Word} (h : decode hi lo = .error (.unknownOpcode c)) :
    c = (canonicalise hi lo).opcodeClass := by
  rw [decode] at h
  cases hl : lookupClass (canonicalise hi lo).opcodeClass with
  | none => simp only [hl] at h; cases h; rfl
  | some build => simp only [hl] at h; cases h

end Sys2Proof

namespace Sys2Proof.Machine

/-- The fetch of two bytes that both exist (R72). -/
theorem State.fetchBytes_of_lt {s : State} (h : s.pc.toNat + 1 < Config.memSize) :
    s.fetchBytes = .ok (s.readMem s.pc.toNat, s.readMem (s.pc.toNat + 1)) := by
  rw [State.fetchBytes, if_neg (by omega)]

/-- Bytes that do not decode are the fault UnknownOpcode, with the word and the class (R83). -/
theorem State.fetch_of_decode_error {s : State} {e : DecodeError} (h : s.pc.toNat + 1 < Config.memSize)
    (hd : decode (s.readMem s.pc.toNat) (s.readMem (s.pc.toNat + 1)) = .error e) :
    s.fetch = .error (.unknownOpcode s.pc (wordOfBytes (s.readMem s.pc.toNat) (s.readMem (s.pc.toNat + 1)))
      (canonicalise (s.readMem s.pc.toNat) (s.readMem (s.pc.toNat + 1))).opcodeClass) := by
  rw [State.fetch, State.fetchBytes_of_lt h]
  simp only [hd]

/-- With no fault latched, a fault of the fetch is latched and nothing else changes (R213). -/
theorem step_of_fetch_error {s : State} {f : FaultInfo} (hn : s.fault = none) (hf : s.fetch = .error f) :
    step s = .next (s.latched f) := by
  rw [step, hn, hf]
  rfl

/-- Settles O11: the fetch reads or raises by its bound, an unknown class raises at dispatch, and the step latches what
the fetch raised. -/
theorem fetchAndDispatchFaults : Obligations.FetchAndDispatchFaults := by
  unfold Obligations.FetchAndDispatchFaults
  intro s hn
  refine ⟨State.fetchBytes_of_lt, fun hb => step_of_fetch_error hn (State.fetch_of_bound hb), ?unknown⟩
  case unknown =>
    intro hlt c hd
    obtain rfl := opcodeClass_of_decode_unknownOpcode hd
    exact ⟨wordOfBytes _ _, toNat_wordOfBytes _ _, rfl, step_of_fetch_error hn (State.fetch_of_decode_error hlt hd)⟩

end Sys2Proof.Machine
end

section
/-! The outcome of a cycle as reported to the host (R106): what a step with no fault latched can answer, what is
reported of each answer, when a cycle waits, and obligation O13. -/

namespace Sys2Proof.Machine

/-- A latched fault is answered again (R213). -/
theorem step_of_fault {s : State} {f : FaultInfo} (hf : s.fault = some f) : step s = .fault (.coreFaulted f) := by
  rw [step, hf]

/-- With no fault latched, a fetched operation runs (R100). -/
theorem step_of_fetch_ok {s : State} {i : Instr} (hn : s.fault = none) (hi : s.fetch = .ok i) :
    step s = exec i s := by
  rw [step, hn, hi]

/-- With no fault latched there is a next state: no fault is latched in it, or it is the old state with the latch
written (R106). -/
theorem step_completes_or_latches {s : State} (hn : s.fault = none) :
    (∃ t, step s = .next t ∧ t.fault = none) ∨ ∃ f, step s = .next (s.latched f) := by
  cases hi : s.fetch with
  | error f => exact .inr ⟨f, step_of_fetch_error hn hi⟩
  | ok i =>
    rw [step_of_fetch_ok hn hi]
    rcases exec_completes_or_raises i s with ⟨t, ht, hft⟩ | ⟨f, hf⟩
    · exact .inl ⟨t, ht, hft.trans hn⟩
    · exact .inr ⟨f, hf⟩

/-! ### What is reported of each answer -/

theorem cycleOutcome_of_fault {s : State} {f : FaultInfo} (hf : s.fault = some f) :
    cycleOutcome s = some (.faulted f) := by
  rw [cycleOutcome, step_of_fault hf]

theorem cycleOutcome_of_step_latched {s : State} {f : FaultInfo} (h : step s = .next (s.latched f)) :
    cycleOutcome s = some (.faulted f) := by
  rw [cycleOutcome, h]
  rfl

theorem cycleOutcome_of_step_completed {s t : State} (h : step s = .next t) (hf : t.fault = none) :
    cycleOutcome s = some (if s.waitsForKey then .waiting else .executed) := by
  rw [cycleOutcome, h]
  simp only [hf]

/-! ### The cycle that waits -/

theorem State.waitsForKey_iff {s : State} :
    s.waitsForKey = true ↔ (∃ x, s.fetch = .ok (.ldVxK x)) ∧ ∀ k : KeyId, s.pressed k = false := by
  rw [← State.lowestKey_eq_none_iff, State.waitsForKey]
  split
  · next x hx => simp [hx]
  · next hne => exact ⟨nofun, fun ⟨⟨x, hx⟩, _⟩ => (hne x hx).elim⟩

/-- LD Vx, K with no key pressed writes no state (R195, R224). -/
theorem exec_ldVxK_of_no_key {s : State} (x : RegId) (hk : ∀ k : KeyId, s.pressed k = false) :
    exec (.ldVxK x) s = .next s := by
  rw [exec, execLdVxK, State.lowestKey_eq_none_iff.2 hk, hold_eq]

/-- A cycle that waits leaves the state unchanged (R106). -/
theorem step_of_waitsForKey {s : State} (hn : s.fault = none) (hw : s.waitsForKey = true) : step s = .next s := by
  obtain ⟨⟨x, hx⟩, hk⟩ := State.waitsForKey_iff.1 hw
  rw [step_of_fetch_ok hn hx, exec_ldVxK_of_no_key x hk]

/-- WAITING is reported when the cycle waits: a waiting cycle completes, and a completed one is WAITING or EXECUTED. -/
theorem cycleOutcome_eq_waiting_iff {s : State} (hn : s.fault = none) :
    cycleOutcome s = some .waiting ↔ s.waitsForKey = true := by
  constructor
  · intro hc
    rcases step_completes_or_latches hn with ⟨t, ht, hft⟩ | ⟨f, hf⟩
    · simpa [cycleOutcome_of_step_completed ht hft] using hc
    · simp [cycleOutcome_of_step_latched hf] at hc
  · intro hw
    rw [cycleOutcome_of_step_completed (step_of_waitsForKey hn hw) hn, if_pos hw]

/-- Settles O13: a step with no fault latched completes or latches, and a completed cycle is WAITING, with the state
unchanged, or EXECUTED. -/
theorem everyCycleHasOneOfThreeOutcomes : Obligations.EveryCycleHasOneOfThreeOutcomes := by
  unfold Obligations.EveryCycleHasOneOfThreeOutcomes
  intro s
  refine ⟨?outcome, fun hn => (cycleOutcome_eq_waiting_iff hn).trans State.waitsForKey_iff,
    fun f => cycleOutcome_of_fault⟩
  case outcome =>
    intro hn
    rcases step_completes_or_latches hn with ⟨t, ht, hft⟩ | ⟨f, hf⟩
    · refine ⟨t, ht, ?_⟩
      by_cases hw : s.waitsForKey = true
      · have hts : t = s := Host.Outcome.next.inj (ht.symm.trans (step_of_waitsForKey hn hw))
        exact .inr (.inl ⟨(cycleOutcome_eq_waiting_iff hn).2 hw, hts⟩)
      · exact .inl ⟨by rw [cycleOutcome_of_step_completed ht hft, if_neg hw], hft⟩
    · exact ⟨s.latched f, hf, .inr (.inr ⟨f, cycleOutcome_of_step_latched hf, rfl⟩)⟩

end Sys2Proof.Machine
end

section
/-! The frame of an instruction part by part, what the operations of control flow leave (R103, R104, R110 to R120), and
obligations O21, O22, O23, O24 and O26. -/

namespace Sys2Proof.Machine

/-! ### Frames and movements of the program counter -/

/-- A property of every part of the state, part by part. -/
theorem Part.forall_iff {P : Part → Prop} :
    (∀ p, P p) ↔ P .v ∧ P .i ∧ P .pc ∧ P .sp ∧ P .stack ∧ P .dt ∧ P .st ∧ P .key ∧ P .screen ∧ P .drawn ∧ P .fault ∧
      P .mem ∧ P .rndDraws := by
  constructor
  · intro h
    exact ⟨h _, h _, h _, h _, h _, h _, h _, h _, h _, h _, h _, h _, h _⟩
  · rintro ⟨hv, hi, hpc, hsp, hstack, hdt, hst, hkey, hscreen, hdrawn, hfault, hmem, hrnd⟩ p
    cases p <;> assumption

theorem onlyChanges_setPc (s : State) (w : Word) : onlyChanges [.pc] s (s.setPc w) := by
  simp [onlyChanges, Part.forall_iff, Part.same]

theorem onlyChanges_skipIf_advance (s : State) (c : Bool) : onlyChanges [.pc] s (s.skipIf c).advance := by
  simp [onlyChanges, Part.forall_iff, Part.same]

/-- An operation that skips on a condition completes (R103, R104). -/
theorem done_skipIf_completes (s : State) (c : Bool) :
    ∃ t, done (s.skipIf c) = .next t ∧ pcMoves (if c then 4 else 2) s t ∧ onlyChanges [.pc] s t :=
  ⟨_, done_eq _, pcMoves_skipIf s c, onlyChanges_skipIf_advance s c⟩

theorem toNat_addByteToWord (w : Word) (b : Byte) : (addByteToWord w b).toNat = (w.toNat + b.toNat) % 65536 :=
  BitVec.toNat_ofNat ..

/-! ### The stack operations, by the depth of the stack -/

theorem exec_call_of_lt {s : State} (addr : Word) (h : s.sp.val < 16) :
    exec (.call addr) s =
      .next { s with stack := s.stack.set s.sp.val s.pc h, pc := addr, sp := ⟨s.sp.val + 1, by omega⟩ } := by
  rw [exec, execCall, dif_pos h, hold_eq]

theorem exec_call_of_full {s : State} (addr : Word) (h : s.sp.val = 16) :
    exec (.call addr) s = .next (s.latched (.stackOverflow s.pc)) := by
  rw [exec, execCall, dif_neg (by omega), raise_eq, State.latched]

/-- RET at depth `k + 1` comes back past the CALL in entry `k`, the top one (R116). -/
theorem exec_ret_of_eq_succ {s : State} {k : Fin 16} (h : s.sp.val = k.val + 1) :
    exec .ret s = .next { s with pc := s.stack.get k + 2, sp := k.castSucc } := by
  rw [exec, execRet, dif_pos (by omega), done_eq]
  simp only [h, Nat.add_sub_cancel, Vector.get_eq_getElem]
  rfl

theorem exec_ret_of_empty {s : State} (h : s.sp.val = 0) :
    exec .ret s = .next (s.latched (.stackUnderflow s.pc)) := by
  rw [exec, execRet, dif_neg (by omega), raise_eq, State.latched]

/-- The entry a push writes, and the entries it keeps (R27). -/
theorem get_set_stack (stack : Vector Word 16) (w : Word) {n : Nat} (h : n < 16) (k : Fin 16) :
    (stack.set n w h).get k = if k.val = n then w else stack.get k := by
  simp [Vector.get_eq_getElem, Vector.getElem_set, eq_comm]

/-! ### The obligations -/

/-- Settles O21: NOP is the trailing advance alone. -/
theorem nopOnlyAdvances : Obligations.NopOnlyAdvances := by
  unfold Obligations.NopOnlyAdvances
  intro s
  exact ⟨s.advance, done_eq s, pcMoves_two s.advance_pc, onlyChanges_setPc s _⟩

/-- Settles O22: both jumps are a write of `pc` that holds. -/
theorem jumpsSetOnlyPc : Obligations.JumpsSetOnlyPc := by
  unfold Obligations.JumpsSetOnlyPc
  intro addr s
  refine ⟨⟨s.setPc addr, rfl, rfl, onlyChanges_setPc s _⟩,
    ⟨s.setPc (addByteToWord addr (s.reg 0)), rfl, ?_, onlyChanges_setPc s _⟩⟩
  rw [State.setPc_pc, toNat_addByteToWord, Nat.add_comm]

/-- Settles O23: below depth 16 the CALL's own address is pushed, and at depth 16 the overflow is latched. -/
theorem callPushesItsOwnAddress : Obligations.CallPushesItsOwnAddress := by
  unfold Obligations.CallPushesItsOwnAddress
  intro addr s
  refine ⟨fun h => ⟨_, exec_call_of_lt addr h, rfl, rfl, get_set_stack s.stack s.pc h, ?frame⟩,
    exec_call_of_full addr⟩
  case frame => simp [onlyChanges, Part.forall_iff, Part.same, State.reg, State.pressed, State.readCell, State.readMem]

/-- Settles O24: with an entry on the stack RET resumes past it, and with none the underflow is latched. -/
theorem retResumesAfterTheCall : Obligations.RetResumesAfterTheCall := by
  unfold Obligations.RetResumesAfterTheCall
  intro s
  refine ⟨fun k h => ⟨_, exec_ret_of_eq_succ h, BitVec.toNat_add _ _, rfl, ?frame⟩, exec_ret_of_empty⟩
  case frame => simp [onlyChanges, Part.forall_iff, Part.same, State.reg, State.pressed, State.readCell, State.readMem]

/-- Settles O26: each of the four is the skip on its comparison. -/
theorem registerSkipsMovePcByTwoOrFour : Obligations.RegisterSkipsMovePcByTwoOrFour := by
  unfold Obligations.RegisterSkipsMovePcByTwoOrFour
  intro x y kk s
  refine ⟨?seByte, ?sneByte, ?seReg, ?sneReg⟩
  case seByte => simpa [exec, execSeByte] using done_skipIf_completes s (s.reg x == kk)
  case sneByte => simpa [exec, execSneByte] using done_skipIf_completes s (s.reg x != kk)
  case seReg => simpa [exec, execSeReg] using done_skipIf_completes s (s.reg x == s.reg y)
  case sneReg => simpa [exec, execSneReg] using done_skipIf_completes s (s.reg x != s.reg y)

end Sys2Proof.Machine
end

section
/-! Register and arithmetic operations (`42_alu.md`): the frame of an operation that writes V registers and advances, the
flags as numbers, and obligations O27 to O31. -/

namespace Sys2Proof.Machine

/-! ### The frame of register writes -/

/-- `t` is `s` after writes to registers of `rs` alone. -/
def writesRegs (rs : List RegId) (s t : State) : Prop := regsSameExcept rs s t ∧ onlyChanges [.v] s t

theorem writesRegs_refl (rs : List RegId) (s : State) : writesRegs rs s s :=
  ⟨fun _ _ => rfl, fun p _ => by cases p <;> simp [Part.same]⟩

/-- A register write leaves every other part of the state (R9). -/
theorem Part.same_setReg {p : Part} (hp : p ≠ .v) (s t : State) (x : RegId) (b : Byte) :
    p.same s (t.setReg x b) ↔ p.same s t := by
  cases p
  case v => exact absurd rfl hp
  all_goals rfl

theorem writesRegs_setReg {rs : List RegId} {s t : State} (h : writesRegs rs s t) {x : RegId} (hx : x ∈ rs) (b : Byte) :
    writesRegs rs s (t.setReg x b) := by
  obtain ⟨hregs, hrest⟩ := h
  refine ⟨fun r hr => ?regs, fun p hp => ?rest⟩
  case regs =>
    have hne : r ≠ x := fun h => hr (h ▸ hx)
    rw [t.reg_setReg_of_ne x b r hne, hregs r hr]
  case rest => exact (Part.same_setReg (by simpa using hp) s t x b).2 (hrest p hp)

/-- The trailing advance after register writes moves `pc` by 2 and adds nothing else to what they changed (R103). -/
theorem advance_of_writesRegs {rs : List RegId} {s t : State} (h : writesRegs rs s t) :
    regsSameExcept rs s t.advance ∧ pcMoves 2 s t.advance ∧ onlyChanges [.v, .pc] s t.advance := by
  obtain ⟨hregs, hrest⟩ := h
  have hpc : t.pc = s.pc := hrest .pc (by decide)
  refine ⟨hregs, pcMoves_two (by rw [State.advance_pc, hpc]), fun p hp => ?_⟩
  obtain ⟨hv, hne⟩ : p ≠ .v ∧ p ≠ .pc := by simpa using hp
  have hsame : p.same s t := hrest p (by simpa using hv)
  cases p
  case pc => exact absurd rfl hne
  all_goals exact hsame

/-- The frame of an operation that writes `Vx` and advances. -/
theorem setReg_advance_frame (s : State) (x : RegId) (b : Byte) :
    regsSameExcept [x] s (s.setReg x b).advance ∧ pcMoves 2 s (s.setReg x b).advance ∧
      onlyChanges [.v, .pc] s (s.setReg x b).advance :=
  advance_of_writesRegs (writesRegs_setReg (writesRegs_refl _ s) (by simp) b)

/-! ### The flags as numbers -/

theorem toNat_flagByte (c : Bool) : (flagByte c).toNat = if c then 1 else 0 := by cases c <;> rfl

theorem toNat_flagByte_carryOut (a b : Byte) :
    (flagByte (carryOut a b)).toNat = if 255 < a.toNat + b.toNat then 1 else 0 := by
  simp [toNat_flagByte, carryOut]

theorem toNat_flagByte_strictlyGreater (a b : Byte) :
    (flagByte (strictlyGreater a b)).toNat = if b.toNat < a.toNat then 1 else 0 := by
  simp [toNat_flagByte, strictlyGreater]

theorem toNat_flagByte_lowBit (a : Byte) : (flagByte (lowBit a)).toNat = a.toNat % 2 := by
  have hbit : lowBit a = true ↔ a.toNat % 2 = 1 := by
    simp [lowBit, ← BitVec.toNat_inj, Nat.and_one_is_mod]
  simp only [toNat_flagByte, hbit]
  split <;> omega

theorem toNat_flagByte_highBit (a : Byte) : (flagByte (highBit a)).toNat = a.toNat / 128 := by
  have hmask : (a &&& 0x80).toNat = a.toNat / 128 % 2 * 128 := by
    rw [BitVec.toNat_and]
    exact (Nat.and_two_pow a.toNat 7).trans (by rw [Nat.toNat_testBit]; rfl)
  have hbit : highBit a = true ↔ a.toNat / 128 % 2 * 128 ≠ 0 := by
    rw [highBit, decide_eq_true_eq, ne_eq, ← BitVec.toNat_inj, hmask]
    rfl
  have hlt := a.isLt
  simp only [toNat_flagByte, hbit]
  split <;> omega

/-! ### The operations that write the flag first, then the result (R140 to R143) -/

/-- A register after the flag write, `VF` being the new flag. -/
theorem toNat_reg_setFlag {c : Bool} {flag : Nat} (hf : (flagByte c).toNat = flag) (s : State) (r : RegId) :
    ((s.setFlag c).reg r).toNat = if r = 0xF then flag else (s.reg r).toNat := by
  rw [State.reg_setFlag, apply_ite BitVec.toNat, hf]
  rfl

theorem intCast_toNat_sub (a b : Byte) : ((a - b).toNat : Int) = ((a.toNat : Int) - b.toNat) % 256 := by
  have ha := a.isLt
  have hb := b.isLt
  rw [BitVec.toNat_sub]
  omega

/-- The difference of two registers, formed after the flag write. -/
theorem intCast_toNat_sub_setFlag {c : Bool} {flag : Nat} (hf : (flagByte c).toNat = flag) (s : State) (m n : RegId) :
    (((s.setFlag c).reg m - (s.setFlag c).reg n).toNat : Int) =
      (((if m = 0xF then flag else (s.reg m).toNat : Nat) : Int) - (if n = 0xF then flag else (s.reg n).toNat : Nat))
        % 256 := by
  rw [intCast_toNat_sub, toNat_reg_setFlag hf, toNat_reg_setFlag hf]

/-- What the result's write and the advance leave of the flag and of the rest of the state. -/
theorem setFlag_setReg_advance_frame {c : Bool} {flag : Nat} (hf : (flagByte c).toNat = flag) (s : State) (x : RegId)
    (b : Byte) :
    (x ≠ 0xF → ((((s.setFlag c).setReg x b).advance).reg 0xF).toNat = flag) ∧
      regsSameExcept [x, 0xF] s ((s.setFlag c).setReg x b).advance ∧
      pcMoves 2 s ((s.setFlag c).setReg x b).advance ∧
      onlyChanges [.v, .pc] s ((s.setFlag c).setReg x b).advance := by
  have hflag : writesRegs [x, 0xF] s (s.setFlag c) := writesRegs_setReg (writesRegs_refl _ s) (by simp [vf]) _
  refine ⟨fun hx => ?_, advance_of_writesRegs (writesRegs_setReg hflag (by simp) b)⟩
  rw [State.advance_reg, State.reg_setReg_of_ne _ x b 0xF hx.symm, toNat_reg_setFlag hf, if_pos rfl]

/-! ### The obligations -/

/-- Settles O29: both writes are of old values, and the carry is the later one. -/
theorem addRegWritesTheCarryLast : Obligations.AddRegWritesTheCarryLast := by
  unfold Obligations.AddRegWritesTheCarryLast
  intro x y s
  have hsum : writesRegs [x, 0xF] s (s.setReg x (s.reg x + s.reg y)) :=
    writesRegs_setReg (writesRegs_refl _ s) (by simp) _
  refine ⟨_, done_eq _, fun hx => ?sum, ?carry, advance_of_writesRegs (writesRegs_setReg hsum (by simp [vf]) _)⟩
  case sum =>
    rw [State.advance_reg, toNat_reg_setFlag (toNat_flagByte_carryOut _ _), if_neg hx, State.reg_setReg_self,
      BitVec.toNat_add]
  case carry => rw [State.advance_reg, toNat_reg_setFlag (toNat_flagByte_carryOut _ _), if_pos rfl]

/-- Settles O30: SUB and SUBN are the difference after the flag write, with the operands exchanged. -/
theorem subtractionsWriteTheStrictFlagFirst : Obligations.SubtractionsWriteTheStrictFlagFirst := by
  unfold Obligations.SubtractionsWriteTheStrictFlagFirst
  intro x y s
  refine ⟨⟨_, done_eq _, ?sub, setFlag_setReg_advance_frame (toNat_flagByte_strictlyGreater _ _) s x _⟩,
    ⟨_, done_eq _, ?subn, setFlag_setReg_advance_frame (toNat_flagByte_strictlyGreater _ _) s x _⟩⟩
  all_goals
    rw [State.advance_reg, State.reg_setReg_self]
    exact intCast_toNat_sub_setFlag (toNat_flagByte_strictlyGreater _ _) s _ _

/-- Settles O31: SHR and SHL shift the register as the flag write left it, and neither meaning reads `y`. -/
theorem shiftsWriteTheBitShiftedOutFirst : Obligations.ShiftsWriteTheBitShiftedOutFirst := by
  unfold Obligations.ShiftsWriteTheBitShiftedOutFirst
  intro x y s
  refine ⟨⟨_, fun _ => rfl, done_eq _, ?shr, setFlag_setReg_advance_frame (toNat_flagByte_lowBit _) s x _⟩,
    ⟨_, fun _ => rfl, done_eq _, ?shl, setFlag_setReg_advance_frame (toNat_flagByte_highBit _) s x _⟩⟩
  case shr =>
    rw [State.advance_reg, State.reg_setReg_self, BitVec.toNat_ushiftRight,
      toNat_reg_setFlag (toNat_flagByte_lowBit _), Nat.shiftRight_one]
  case shl =>
    rw [State.advance_reg, State.reg_setReg_self, BitVec.toNat_shiftLeft,
      toNat_reg_setFlag (toNat_flagByte_highBit _), Nat.shiftLeft_eq, Nat.pow_one]

/-- Settles O27: each of the five is one write of `Vx` and the advance. -/
theorem loadsAndLogicWriteTheDestinationAlone : Obligations.LoadsAndLogicWriteTheDestinationAlone := by
  unfold Obligations.LoadsAndLogicWriteTheDestinationAlone
  intro x y kk s
  refine ⟨⟨_, done_eq _, ?ldByte, setReg_advance_frame s x _⟩, ⟨_, done_eq _, ?ldReg, setReg_advance_frame s x _⟩,
    ⟨_, done_eq _, fun k _ => ?or, setReg_advance_frame s x _⟩,
    ⟨_, done_eq _, fun k _ => ?and, setReg_advance_frame s x _⟩,
    ⟨_, done_eq _, fun k _ => ?xor, setReg_advance_frame s x _⟩⟩
  all_goals rw [State.advance_reg, State.reg_setReg_self]
  case or => exact BitVec.getLsbD_or
  case and => exact BitVec.getLsbD_and
  case xor => exact BitVec.getLsbD_xor

/-- Settles O28: one write of `Vx`, the sum of two bytes. -/
theorem addByteWrapsWithNoFlag : Obligations.AddByteWrapsWithNoFlag := by
  unfold Obligations.AddByteWrapsWithNoFlag
  intro x kk s
  refine ⟨_, done_eq _, ?sum, setReg_advance_frame s x _⟩
  rw [State.advance_reg, State.reg_setReg_self, BitVec.toNat_add]

end Sys2Proof.Machine
end

section
/-! Index register and memory operations (`43_index_memory.md`): the data bound of R57, what an operation that stores
bytes at `I` leaves, the frames of the writes of `I` and of the loop of LD Vx, [I], and obligations O33 to O36. -/

namespace Sys2Proof.Machine

/-! ### The data bound -/

/-- When a byte of the access does not exist, the fault with the lowest bad address is latched before any effect
(R57). -/
theorem withDataRange_of_not_fits {n : Nat} {s : State} {body : Result} (hn : 0 < n)
    (h : Config.memSize < s.i.toNat + n) :
    withDataRange n s body = .next (s.latched (.memoryOutOfBounds s.pc (max s.i.toNat Config.memSize))) := by
  rcases withDataRange_cases (n := n) (s := s) (body := body) with ⟨hfits, -⟩ | ⟨-, -, hraise⟩
  · omega
  · rw [hraise, raise_eq, State.latched]

/-! ### The operations that store bytes at `I` (R163, R164) -/

/-- Address `a + k` reads as byte `k` of the run stored at `a` (R54). -/
theorem State.readMem_storeBytes_add {s : State} (hwf : s.mem.wf) {a : Nat} {bs : List Byte}
    (hb : a + bs.length ≤ Config.memSize) {k : Nat} (hk : k < bs.length) :
    (s.storeBytes a bs).readMem (a + k) = bs[k] := by
  rw [State.readMem, State.storeBytes_mem, Memory.read_writeBytes hwf a bs hb, if_pos (by omega),
    Nat.add_sub_cancel_left, List.getD_eq_getElem _ _ hk]

/-- An address below or above the run reads as before. -/
theorem State.readMem_storeBytes_of_outside {s : State} (hwf : s.mem.wf) {a : Nat} {bs : List Byte}
    (hb : a + bs.length ≤ Config.memSize) {b : Nat} (hout : b < a ∨ a + bs.length ≤ b) :
    (s.storeBytes a bs).readMem b = s.readMem b := by
  rw [State.readMem, State.storeBytes_mem, Memory.read_writeBytes hwf a bs hb, if_neg (by omega), State.readMem]

theorem storeBytes_advance_frame (s : State) (a : Nat) (bs : List Byte) :
    pcMoves 2 s (s.storeBytes a bs).advance ∧ onlyChanges [.mem, .pc] s (s.storeBytes a bs).advance := by
  refine ⟨pcMoves_two rfl, ?frame⟩
  case frame => simp [onlyChanges, Part.forall_iff, Part.same]

/-- An operation that stores bytes at `I`, all of whose addresses exist, completes: each byte at its address, every
other byte kept. -/
theorem withDataRange_storeBytes_completes {s : State} (hwf : s.mem.wf) {bs : List Byte}
    (hb : s.i.toNat + bs.length ≤ Config.memSize) :
    ∃ t, withDataRange bs.length s (done (s.storeBytes s.i.toNat bs)) = .next t ∧
      (∀ k (hk : k < bs.length), t.readMem (s.i.toNat + k) = bs[k]) ∧
      (∀ a, a < s.i.toNat ∨ s.i.toNat + bs.length ≤ a → t.readMem a = s.readMem a) ∧
      pcMoves 2 s t ∧ onlyChanges [.mem, .pc] s t :=
  ⟨_, withDataRange_of_fits (.inr hb), fun _ hk => State.readMem_storeBytes_add hwf hb hk,
    fun _ hout => State.readMem_storeBytes_of_outside hwf hb hout, storeBytes_advance_frame s _ bs⟩

@[simp] theorem length_bcdDigits (b : Byte) : (bcdDigits b).length = 3 := rfl

/-- The three bytes LD B stores, as numbers: the hundreds and the other two digits all fit a byte (R163). -/
theorem toNat_getElem_bcdDigits (b : Byte) :
    (bcdDigits b)[0].toNat = b.toNat / 100 ∧ (bcdDigits b)[1].toNat = b.toNat / 10 % 10 ∧
      (bcdDigits b)[2].toNat = b.toNat % 10 := by
  have hb := b.isLt
  refine ⟨Nat.mod_eq_of_lt ?_, Nat.mod_eq_of_lt ?_, Nat.mod_eq_of_lt ?_⟩ <;> omega

theorem length_map_regsUpTo (x : RegId) (s : State) : ((regsUpTo x).map s.reg).length = x.val + 1 := by
  rw [List.length_map, length_regsUpTo]

/-- Byte `k` of the registers LD [I], Vx stores is `V[k]` (R164). -/
theorem getElem_map_regsUpTo (x : RegId) (s : State) (k : RegId) (hk : k.val < ((regsUpTo x).map s.reg).length) :
    ((regsUpTo x).map s.reg)[k.val] = s.reg k := by
  rw [List.getElem_map]
  exact congrArg s.reg (Fin.ext (getElem_regsUpTo x k.val _))

/-! ### The operations that write `I`, and the loop that reads memory (R160 to R162, R165) -/

theorem setI_advance_frame (s : State) (w : Word) :
    pcMoves 2 s (s.setI w).advance ∧ onlyChanges [.i, .pc] s (s.setI w).advance := by
  refine ⟨pcMoves_two rfl, ?frame⟩
  case frame => simp [onlyChanges, Part.forall_iff, Part.same]

/-- The loop of LD Vx, [I] writes the registers of its list alone. -/
theorem writesRegs_loadRegs (ks : List RegId) (s : State) : writesRegs ks s (loadRegs ks s) := by
  refine ⟨fun r hr => by rw [loadRegs_reg, if_neg hr], ?frame⟩
  case frame =>
    rw [loadRegs_eq]
    simp [onlyChanges, Part.forall_iff, Part.same, State.pressed, State.readCell, State.readMem]

/-! ### The obligations -/

/-- Settles O34: LD B stores three bytes at `I` when all three addresses exist, and else raises. -/
theorem ldBStoresTheDecimalDigits : Obligations.LdBStoresTheDecimalDigits := by
  unfold Obligations.LdBStoresTheDecimalDigits
  intro x s hwf
  refine ⟨fun hfits => ?stores, fun hbad => withDataRange_of_not_fits (by decide) (Nat.lt_succ_of_le hbad)⟩
  case stores =>
    obtain ⟨t, ht, hstored, hkept, hframe⟩ :=
      withDataRange_storeBytes_completes hwf (bs := bcdDigits (s.reg x)) hfits
    obtain ⟨hhundreds, htens, hones⟩ := toNat_getElem_bcdDigits (s.reg x)
    refine ⟨t, ht, ?_, ?_, ?_, hkept, hframe⟩
    · exact (congrArg BitVec.toNat (hstored 0 (by simp))).trans hhundreds
    · exact (congrArg BitVec.toNat (hstored 1 (by simp))).trans htens
    · exact (congrArg BitVec.toNat (hstored 2 (by simp))).trans hones

/-- Settles O35: LD [I], Vx stores `x + 1` bytes at `I`, byte `k` being `V[k]`, or raises. -/
theorem ldMemStoresTheRegisters : Obligations.LdMemStoresTheRegisters := by
  unfold Obligations.LdMemStoresTheRegisters
  intro x s hwf
  refine ⟨fun hfits => ?stores,
    fun hbad => withDataRange_of_not_fits (Nat.succ_pos x.val) (Nat.lt_succ_of_le hbad)⟩
  case stores =>
    have hlen := length_map_regsUpTo x s
    obtain ⟨t, ht, hstored, hkept, hframe⟩ :=
      withDataRange_storeBytes_completes hwf (bs := (regsUpTo x).map s.reg) (by rw [hlen]; exact hfits)
    rw [hlen] at ht hkept
    refine ⟨t, ht, fun k hk => ?_, hkept, hframe⟩
    have hlt : k.val < ((regsUpTo x).map s.reg).length := by rw [hlen]; exact Nat.lt_succ_of_le hk
    rw [hstored k.val hlt, getElem_map_regsUpTo]

/-- Settles O36: the loop loads the registers up to `x` alone, each from its own address, or LD Vx, [I] raises. -/
theorem ldVxMemLoadsTheRegisters : Obligations.LdVxMemLoadsTheRegisters := by
  unfold Obligations.LdVxMemLoadsTheRegisters
  intro x s
  refine ⟨fun hfits => ?loads,
    fun hbad => withDataRange_of_not_fits (Nat.succ_pos x.val) (Nat.lt_succ_of_le hbad)⟩
  case loads =>
    obtain ⟨-, hframe⟩ := advance_of_writesRegs (writesRegs_loadRegs (regsUpTo x) s)
    refine ⟨_, withDataRange_of_fits (.inr hfits), fun k => ?_, hframe⟩
    rw [State.advance_reg, loadRegs_reg]
    simp only [mem_regsUpTo]

/-- Settles O33: each of the three is one write of `I` and the advance. -/
theorem indexRegisterResults : Obligations.IndexRegisterResults := by
  unfold Obligations.IndexRegisterResults
  intro addr x s
  refine ⟨⟨_, done_eq _, rfl, setI_advance_frame s _⟩,
    ⟨_, done_eq _, toNat_addByteToWord s.i (s.reg x), setI_advance_frame s _⟩,
    ⟨_, done_eq _, (BitVec.toNat_ofNat ..).trans (Nat.mod_eq_of_lt ?fits), setI_advance_frame s _⟩⟩
  case fits =>
    have hb := (s.reg x).isLt
    omega

end Sys2Proof.Machine
end

section
/-! Display operations (`44_display.md`): the cells of a sprite as R182 and R183 number them, the canvas a draw leaves,
the two outcomes of DRW, and obligations O38 and O39. -/

namespace Sys2Proof.Machine

/-! ### The cells under a sprite (R182, R183) -/

/-- Column `j` of a sprite row, as a number: bit `7 - j` of the byte (R182). -/
theorem spriteBit_eq_true_iff (row : Byte) (j : Nat) : spriteBit row j = true ↔ row.toNat / 2 ^ (7 - j) % 2 = 1 := by
  rw [spriteBit, BitVec.getLsbD, Nat.testBit_eq_decide_div_mod_eq, decide_eq_true_iff]

/-- The cells a draw toggles are those the sprite at `I` covers. -/
theorem mem_spritePixels_iff_spriteCovers {s : State} {vx vy : Byte} {h : Nat} {idx : CellIdx} :
    idx ∈ spritePixels vx vy 0 (s.mem.readBytes s.i.toNat h) ↔ spriteCovers s vx vy h idx := by
  rw [mem_spritePixels, spriteCovers, Memory.length_readBytes]
  refine exists_congr fun r => and_congr_right fun hr => exists_congr fun j => and_congr_right fun _ => ?_
  rw [spriteBit_eq_true_iff, Memory.getD_readBytes _ _ _ _ hr, Fin.ext_iff, pixelIndex_val, Nat.zero_add]
  rfl

/-! ### The canvas a draw leaves -/

/-- The canvas DRW leaves of `s`: the sprite of `h` rows at `I`, with its origin at `(vx, vy)` (R182). -/
def State.blit (s : State) (vx vy : Byte) (h : Nat) : Canvas :=
  drawRows vx vy 0 (s.mem.readBytes s.i.toNat h) { screen := s.screen, hit := false }

/-- A sprite of `h` below 16 is lower than the display, so none of its rows wraps onto another (R81, R183). -/
theorem length_spriteRows_le (s : State) {h : Nat} (hh : h < 16) : (s.mem.readBytes s.i.toNat h).length ≤ 32 := by
  rw [Memory.length_readBytes]
  omega

section
variable {s : State} {vx vy : Byte} {h : Nat} (hh : h < 16)
include hh

theorem State.blit_get_of_covers {idx : CellIdx} (hc : spriteCovers s vx vy h idx) :
    (s.blit vx vy h).screen.get idx = s.readCell idx ^^^ 1 := by
  rw [State.blit, drawRows_get _ _ _ (length_spriteRows_le s hh),
    if_pos (mem_spritePixels_iff_spriteCovers.2 hc), State.readCell]

theorem State.blit_get_of_not_covers {idx : CellIdx} (hc : ¬ spriteCovers s vx vy h idx) :
    (s.blit vx vy h).screen.get idx = s.readCell idx := by
  rw [State.blit, drawRows_get _ _ _ (length_spriteRows_le s hh),
    if_neg (mt mem_spritePixels_iff_spriteCovers.1 hc), State.readCell]

/-- A draw reports an erasure when a covered cell was lit (R182). -/
theorem State.blit_hit_iff :
    (s.blit vx vy h).hit = true ↔ ∃ idx : CellIdx, spriteCovers s vx vy h idx ∧ s.readCell idx = 1 := by
  rw [State.blit, drawRows_hit _ _ _ (length_spriteRows_le s hh)]
  simp [mem_spritePixels_iff_spriteCovers, State.readCell]

end

/-! ### The two outcomes of DRW (R57, R182) -/

/-- DRW whose rows all exist: the origin is that of `s`, before the flag write. -/
theorem exec_drw_of_fits {x y : RegId} {h : Nat} {s : State} (hf : dataFits h s) :
    exec (.drw x y h) s =
      .next (({ s with screen := (s.blit (s.reg x) (s.reg y) h).screen, drawn := true }.setFlag
        (s.blit (s.reg x) (s.reg y) h).hit).advance) :=
  withDataRange_of_fits hf

theorem exec_drw_of_not_fits {x y : RegId} {h : Nat} {s : State} (hf : ¬ dataFits h s) :
    exec (.drw x y h) s = .next (s.latched (.memoryOutOfBounds s.pc (max s.i.toNat 4096))) := by
  obtain ⟨hpos, hbad⟩ := not_or.1 hf
  exact withDataRange_of_not_fits (Nat.pos_of_ne_zero hpos) (Nat.lt_of_not_le hbad)

theorem State.reg_setFlag_vf (s : State) (c : Bool) : (s.setFlag c).reg 0xF = flagByte c :=
  s.reg_setReg_self vf (flagByte c)

/-- The frame of DRW, whatever the new display and the flag are. -/
theorem setScreen_setFlag_advance_frame {s t : State} {screen : Vector Byte 2048} {c : Bool}
    (ht : t = ({ s with screen := screen, drawn := true }.setFlag c).advance) :
    regsSameExcept [0xF] s t ∧ pcMoves 2 s t ∧ onlyChanges [.v, .screen, .drawn, .pc] s t := by
  subst ht
  refine ⟨fun r hr => State.reg_setReg_of_ne _ vf _ r (by simpa [vf] using hr), pcMoves_two rfl, ?frame⟩
  case frame => simp [onlyChanges, Part.forall_iff, Part.same, State.pressed, State.readMem]

/-! ### The obligations -/

/-- Settles O38: CLS is the all-zero display with `DRAWN` set, and the advance. -/
theorem clsClearsEveryCell : Obligations.ClsClearsEveryCell := by
  unfold Obligations.ClsClearsEveryCell
  intro s
  refine ⟨_, done_eq _, fun idx => ?cell, rfl, pcMoves_two rfl, ?frame⟩
  case cell => simp [State.readCell, Vector.get_eq_getElem]
  case frame => simp [onlyChanges, Part.forall_iff, Part.same, State.reg, State.pressed, State.readMem]

/-- Settles O39: DRW leaves the canvas of the blit, with its erasure report in `VF`, or raises. -/
theorem drwXorsTheSpriteAndReportsErasure : Obligations.DrwXorsTheSpriteAndReportsErasure := by
  unfold Obligations.DrwXorsTheSpriteAndReportsErasure
  intro x y h s hh
  refine ⟨fun hf => ?draws, exec_drw_of_not_fits⟩
  case draws =>
    refine ⟨_, exec_drw_of_fits hf, fun idx => State.blit_get_of_covers hh, fun idx => State.blit_get_of_not_covers hh,
      fun hlit => ?erased, fun hdark => ?kept, rfl, setScreen_setFlag_advance_frame rfl⟩
    case erased =>
      rw [State.advance_reg, State.reg_setFlag_vf, (State.blit_hit_iff hh).2 hlit]
      rfl
    case kept =>
      rw [State.advance_reg, State.reg_setFlag_vf, Bool.eq_false_iff.2 (mt (State.blit_hit_iff hh).1 hdark)]
      rfl

end Sys2Proof.Machine
end

section
/-! Keypad and timer operations (`45_input_timers.md`): the key a register names, the lowest pressed key, the frames of the
timer writes, and obligations O41, O42 and O43. -/

namespace Sys2Proof.Machine

/-! ### The key named by the value of `Vx` (R190 to R192) -/

theorem withKey_of_eq {x : RegId} {s : State} {body : KeyId → Result} {k : KeyId} (h : (s.reg x).toNat = k.val) :
    withKey x s body = body k := by
  rcases withKey_cases (x := x) (s := s) (body := body) with ⟨hlt, hbody⟩ | ⟨hge, -⟩
  · rw [hbody]
    exact congrArg body (Fin.ext h)
  · omega

theorem withKey_of_gt {x : RegId} {s : State} {body : KeyId → Result} (h : 15 < (s.reg x).toNat) :
    withKey x s body = .next (s.latched (.keyOutOfRange s.pc (s.reg x))) := by
  rcases withKey_cases (x := x) (s := s) (body := body) with ⟨hlt, -⟩ | ⟨-, hraise⟩
  · omega
  · rw [hraise, raise_eq, State.latched]

theorem exec_skp (x : RegId) (s : State) : exec (.skp x) s = withKey x s fun k => done (s.skipIf (s.pressed k)) := rfl

theorem exec_sknp (x : RegId) (s : State) : exec (.sknp x) s = withKey x s fun k => done (s.skipIf (!s.pressed k)) := rfl

/-! ### The lowest pressed key (R194) -/

theorem State.lowestKey_eq_some_iff {s : State} {k : KeyId} :
    s.lowestKey = some k ↔ s.pressed k = true ∧ ∀ j : KeyId, j < k → s.pressed j = false := by
  rw [State.lowestKey, ← Fin.find?_eq_find?_finRange, Fin.find?_eq_some_iff]

/-- LD Vx, K with a key pressed is one write of `Vx` and the advance. -/
theorem exec_ldVxK_of_lowestKey {s : State} (x : RegId) {k : KeyId} (h : s.lowestKey = some k) :
    exec (.ldVxK x) s = .next (s.setReg x (BitVec.ofNat 8 k.val)).advance := by
  simp only [exec, execLdVxK, h, done_eq]

theorem toNat_ofNat_keyId (k : KeyId) : (BitVec.ofNat 8 k.val).toNat = k.val :=
  Nat.mod_eq_of_lt (Nat.lt_trans k.isLt (by decide))

/-! ### The writes of the timers (R196, R197) -/

theorem setDt_advance_frame (s : State) (b : Byte) :
    pcMoves 2 s { s with dt := b }.advance ∧ onlyChanges [.dt, .pc] s { s with dt := b }.advance := by
  refine ⟨pcMoves_two rfl, ?frame⟩
  case frame => simp [onlyChanges, Part.forall_iff, Part.same, State.reg, State.pressed, State.readCell, State.readMem]

theorem setSt_advance_frame (s : State) (b : Byte) :
    pcMoves 2 s { s with st := b }.advance ∧ onlyChanges [.st, .pc] s { s with st := b }.advance := by
  refine ⟨pcMoves_two rfl, ?frame⟩
  case frame => simp [onlyChanges, Part.forall_iff, Part.same, State.reg, State.pressed, State.readCell, State.readMem]

/-! ### The obligations -/

/-- Settles O43: the search for the lowest key finds the one with none pressed below it, whose id fits the byte written,
and with no key pressed LD Vx, K holds. -/
theorem ldVxKTakesTheLowestKeyOrHolds : Obligations.LdVxKTakesTheLowestKeyOrHolds := by
  unfold Obligations.LdVxKTakesTheLowestKeyOrHolds
  intro x s
  refine ⟨fun k hk hbelow => ?takes, exec_ldVxK_of_no_key x⟩
  case takes =>
    have hlowest : s.lowestKey = some k := State.lowestKey_eq_some_iff.2 ⟨hk, hbelow⟩
    refine ⟨_, exec_ldVxK_of_lowestKey x hlowest, ?_, setReg_advance_frame s x _⟩
    rw [State.advance_reg, State.reg_setReg_self, toNat_ofNat_keyId]

/-- Settles O41: on the key `Vx` names SKP is the skip on its flag and SKNP the skip on the negation, and with no such
key both raise. -/
theorem keySkipsTestTheKeyNamedByVx : Obligations.KeySkipsTestTheKeyNamedByVx := by
  unfold Obligations.KeySkipsTestTheKeyNamedByVx
  intro x s
  rw [exec_skp, exec_sknp]
  refine ⟨fun k hk => ⟨?skp, ?sknp⟩, fun hbad => ⟨withKey_of_gt hbad, withKey_of_gt hbad⟩⟩
  all_goals rw [withKey_of_eq hk]
  case skp => exact done_skipIf_completes s (s.pressed k)
  case sknp =>
    simpa only [Bool.not_eq_true', ← Bool.not_eq_true, ite_not] using done_skipIf_completes s (!s.pressed k)

/-- Settles O42: each of the three is one write of a byte, of `Vx`, DT or ST, and the advance. -/
theorem timerMovesCopyOneByte : Obligations.TimerMovesCopyOneByte := by
  unfold Obligations.TimerMovesCopyOneByte
  intro x s
  refine ⟨⟨_, done_eq _, ?reg, setReg_advance_frame s x _⟩, ⟨_, done_eq _, rfl, setDt_advance_frame s _⟩,
    ⟨_, done_eq _, rfl, setSt_advance_frame s _⟩⟩
  case reg => rw [State.advance_reg, State.reg_setReg_self]

end Sys2Proof.Machine
end

section
/-! Exceptions and the host (`60_exceptions.md`): a latched fault is precise and sticky, what each host action leaves of
the state, the invariants at the start of a session and under host actions, and obligations O12, O16 and O44. -/

namespace Sys2Proof.Machine

/-! ### What every host action leaves alone (R227 to R229) -/

section
variable (a : HostAction) (s : State)

@[simp] theorem hostAct_pc : (hostAct a s).pc = s.pc := by cases a <;> rfl
@[simp] theorem hostAct_stack : (hostAct a s).stack = s.stack := by cases a <;> rfl
@[simp] theorem hostAct_screen : (hostAct a s).screen = s.screen := by cases a <;> rfl
@[simp] theorem hostAct_fault : (hostAct a s).fault = s.fault := by cases a <;> rfl
@[simp] theorem hostAct_mem : (hostAct a s).mem = s.mem := by cases a <;> rfl

end

/-! ### The fault latch (R211, R213) -/

/-- A step into a state with a fault latched did not complete, so it wrote the latch alone. -/
theorem eq_latched_of_step_next {s t : State} {f : FaultInfo} (ht : step s = .next t) (hf : t.fault = some f) :
    t = s.latched f := by
  rcases step_completes_or_latches (fault_none_of_step_next ht) with ⟨u, hu, hnone⟩ | ⟨g, hg⟩
  · obtain rfl : t = u := Host.Outcome.next.inj (ht.symm.trans hu)
    cases hf.symm.trans hnone
  · obtain rfl : t = s.latched g := Host.Outcome.next.inj (ht.symm.trans hg)
    obtain rfl : g = f := Option.some.inj hf
    rfl

/-- Settles O12: a step that latches is not one that completes, and the latch is no host action's to write. -/
theorem faultsArePreciseAndSticky : Obligations.FaultsArePreciseAndSticky := by
  unfold Obligations.FaultsArePreciseAndSticky
  intro s
  exact ⟨fun _ => step_of_fault, fun _ _ => eq_latched_of_step_next, fun a => hostAct_fault a s⟩

/-! ### The invariants where no step is taken: reset, the ROM load, host actions -/

theorem State.inv_reset : State.reset.Inv :=
  ⟨Memory.wf_nil, fun idx => .inl (State.reset_readCell idx)⟩

theorem State.pcBounded_reset : State.reset.PcBounded :=
  ⟨by decide, fun k => by rw [State.reset_stack_get]; decide⟩

theorem State.Inv.storeBytes {s : State} (h : s.Inv) (a : Nat) (bs : List Byte) : (s.storeBytes a bs).Inv :=
  ⟨Memory.wf_writeBytes h.mem_wf a bs, h.cells⟩

theorem State.PcBounded.storeBytes {s : State} (h : s.PcBounded) (a : Nat) (bs : List Byte) :
    (s.storeBytes a bs).PcBounded :=
  ⟨h.pc_le, h.stack_le⟩

theorem State.Inv.hostAct {s : State} (h : s.Inv) (a : HostAction) : (hostAct a s).Inv :=
  ⟨by rw [hostAct_mem]; exact h.mem_wf, by rw [hostAct_screen]; exact h.cells⟩

theorem State.PcBounded.hostAct {s : State} (h : s.PcBounded) (a : HostAction) : (hostAct a s).PcBounded :=
  ⟨by rw [hostAct_pc]; exact h.pc_le, by rw [hostAct_stack]; exact h.stack_le⟩

/-- Settles O16: a session starts at reset with its ROM stored, and neither a store nor a host action breaks an
invariant. -/
theorem sessionsStartInTheInvariants : Obligations.SessionsStartInTheInvariants := by
  unfold Obligations.SessionsStartInTheInvariants
  refine ⟨State.inv_reset, State.pcBounded_reset, fun rom t ht => ?boot, fun a s => ⟨(·.hostAct a), (·.hostAct a)⟩⟩
  case boot =>
    obtain ⟨bytes, -, -, rfl⟩ := boot_next ht
    exact ⟨State.inv_reset.storeBytes _ bytes, State.pcBounded_reset.storeBytes _ bytes⟩

/-! ### What each host action changes (R227 to R229) -/

/-- The stop at zero of R228 is the truncated subtraction of naturals. -/
theorem toNat_tickDown (b : Byte) : (tickDown b).toNat = b.toNat - 1 := by
  rw [tickDown]
  split
  · next h => subst h; rfl
  · bv_omega

theorem State.updateKeys_pressed (up : Vector (Option Bool) 16) (s : State) (k : KeyId) :
    (s.updateKeys up).pressed k = (up.get k).getD (s.pressed k) := by
  simp [State.pressed, State.updateKeys, Vector.get_eq_getElem]

theorem onlyChanges_timerTick (s : State) : onlyChanges [.dt, .st] s s.timerTick := by
  simp [onlyChanges, Part.forall_iff, Part.same]

theorem onlyChanges_ackDraw (s : State) : onlyChanges [.drawn] s s.ackDraw := by
  simp [onlyChanges, Part.forall_iff, Part.same]

theorem onlyChanges_updateKeys (up : Vector (Option Bool) 16) (s : State) :
    onlyChanges [.key] s (s.updateKeys up) := by
  simp [onlyChanges, Part.forall_iff, Part.same]

/-- Settles O44: a tick is `tickDown` of both timers, an acknowledge the write of `DRAWN`, and an update the write of the
keypad. -/
theorem hostActionsChangeOnlyTheirOwnState : Obligations.HostActionsChangeOnlyTheirOwnState := by
  unfold Obligations.HostActionsChangeOnlyTheirOwnState
  intro s
  exact ⟨⟨toNat_tickDown s.dt, toNat_tickDown s.st, onlyChanges_timerTick s⟩, ⟨s.ackDraw_drawn, onlyChanges_ackDraw s⟩,
    fun up => ⟨s.updateKeys_pressed up, onlyChanges_updateKeys up s⟩⟩

end Sys2Proof.Machine
end

section
/-! The start of a session (`70_reset_and_hazards.md`): what `boot` answers to a ROM that fits, to one that does not and
to a file that cannot be read, the frame of the ROM load, and obligation O2. -/

namespace Sys2Proof.Machine

theorem boot_none : boot none = .fault .romLoadFailure := rfl

theorem boot_of_fits {bytes : List Byte} (h : bytes.length ≤ romCapacity) :
    boot (some bytes) = .next (State.reset.storeBytes Config.romBase bytes) :=
  if_neg (Nat.not_lt.2 h)

theorem boot_of_too_long {bytes : List Byte} (h : romCapacity < bytes.length) :
    boot (some bytes) = .fault .romLoadFailure :=
  if_pos h

theorem onlyChanges_storeBytes (s : State) (a : Nat) (bs : List Byte) : onlyChanges [.mem] s (s.storeBytes a bs) := by
  simp [onlyChanges, Part.forall_iff, Part.same]

/-- Settles O2: a ROM that fits is one store of its bytes on reset, whose memory is canonical, and both failures are
`boot`'s own cases. -/
theorem bootLoadsTheRomOrStartsNoSession : Obligations.BootLoadsTheRomOrStartsNoSession := by
  unfold Obligations.BootLoadsTheRomOrStartsNoSession
  refine ⟨fun bytes hlen => ?fits, fun _ => boot_of_too_long, boot_none⟩
  case fits =>
    have hwf : State.reset.mem.wf := State.inv_reset.mem_wf
    have hfits : Config.romBase + bytes.length ≤ Config.memSize := Nat.add_le_add_left hlen Config.romBase
    refine ⟨_, boot_of_fits hlen, fun k hk => ?filled, fun a hout => ?outside, onlyChanges_storeBytes _ _ bytes⟩
    case filled =>
      rw [List.getD_eq_getElem bytes 0 hk]
      exact State.readMem_storeBytes_add hwf hfits hk
    case outside => exact State.readMem_storeBytes_of_outside hwf hfits hout

end Sys2Proof.Machine
end

section
/-! Decode after encode (R53, R70 to R86): the canonicalisation of a word in numbers, each format of R79 decoded by its
row of the table, and obligation O3. -/

namespace Sys2Proof

/-! ### The canonicalisation of a word, by its top nibble (R73 to R77) -/

theorem canonicalise_word_of_xyk {w : Word} (h : w.toNat / 4096 = 5 ∨ w.toNat / 4096 = 8 ∨ w.toNat / 4096 = 9) :
    (canonicalise (hiByte w) (loByte w)).opcodeClass.toNat = w.toNat / 4096 * 16 + w.toNat % 16 ∧
      (canonicalise (hiByte w) (loByte w)).operand.toNat = w.toNat / 16 % 256 := by
  obtain ⟨hc, ho⟩ := canonicalise_of_xyk (hi := hiByte w) (lo := loByte w) (by rw [toNat_hiByte]; omega)
  rw [hc, ho, toNat_hiByte, toNat_loByte]
  omega

theorem canonicalise_word_of_xf {w : Word} (h : w.toNat / 4096 = 0xE ∨ w.toNat / 4096 = 0xF) :
    (canonicalise (hiByte w) (loByte w)).opcodeClass.toNat = w.toNat / 4096 * 256 + w.toNat % 256 ∧
      (canonicalise (hiByte w) (loByte w)).operand.toNat = w.toNat / 256 % 16 := by
  obtain ⟨hc, ho⟩ := canonicalise_of_xf (hi := hiByte w) (lo := loByte w) (by rw [toNat_hiByte]; omega)
  rw [hc, ho, toNat_hiByte, toNat_loByte]
  omega

theorem canonicalise_word_of_other {w : Word} (h : w.toNat / 4096 ∉ [0x0, 0x5, 0x8, 0x9, 0xE, 0xF]) :
    (canonicalise (hiByte w) (loByte w)).opcodeClass.toNat = w.toNat / 4096 ∧
      (canonicalise (hiByte w) (loByte w)).operand.toNat = w.toNat % 4096 := by
  have hn : (hiByte w).toNat / 16 = w.toNat / 4096 := by rw [toNat_hiByte]; omega
  obtain ⟨hc, ho⟩ := canonicalise_of_other (hi := hiByte w) (lo := loByte w) (by rwa [hn])
  rw [hc, ho, toNat_hiByte, toNat_loByte]
  omega

/-! ### Decoding by the row of the table (R83) -/

theorem decode_of_lookup {hi lo : Byte} {build : Word → Instr}
    (hl : lookupClass (canonicalise hi lo).opcodeClass = some build) :
    decode hi lo = .ok (build (canonicalise hi lo).operand) := by
  rw [decode]
  simp only [hl]

/-- A word decodes by the row whose key is the number of its class. -/
theorem decodeWord_of_class {w c : Word} {build : Word → Instr} (hl : lookupClass c = some build)
    (hc : (canonicalise (hiByte w) (loByte w)).opcodeClass.toNat = c.toNat) :
    decodeWord w = .ok (build (canonicalise (hiByte w) (loByte w)).operand) :=
  decode_of_lookup (by rw [BitVec.eq_of_toNat_eq hc, hl])

/-! ### The formats of R79: the fields written are the fields read back (R80, R81) -/

theorem addrField_eq_of_toNat {opd : Word} (addr : Word) (h : opd.toNat % 4096 = addr.toNat) : addrField opd = addr :=
  BitVec.eq_of_toNat_eq ((toNat_addrField opd).trans h)

theorem regField_eq_of_toNat {opd : Word} {lo : Nat} (x : RegId) (h : opd.toNat / 2 ^ lo % 16 = x.val) :
    regField opd lo = x :=
  Fin.ext ((val_regField opd lo).trans h)

theorem byteField_eq_of_toNat {opd : Word} (kk : Byte) (h : opd.toNat % 256 = kk.toNat) : byteField opd = kk :=
  BitVec.eq_of_toNat_eq ((toNat_byteField opd).trans h)

/-- The class of a word whose function field `k` takes part in the lookup (R74, R75). -/
theorem toNat_setWidth_append {m : Nat} (hm : m ≤ 12) (n : BitVec 4) (k : BitVec m) :
    ((n ++ k).setWidth 16).toNat = n.toNat * 2 ^ m + k.toNat := by
  rw [BitVec.toNat_setWidth_of_le (by omega), BitVec.toNat_append, Nat.shiftLeft_eq, Nat.mul_comm,
    ← Nat.two_pow_add_eq_or_of_lt k.isLt]

/-- Format A. -/
theorem decodeWord_formatA {n : BitVec 4} {f : Word → Instr} {addr : Word}
    (hn : n.toNat ∉ [0x0, 0x5, 0x8, 0x9, 0xE, 0xF]) (hl : lookupClass (n.setWidth 16) = some (withAddr f))
    (ha : addrFits addr = true) : decodeWord (formatA n addr) = .ok (f addr) := by
  have hw := toNat_formatA n addr
  have hfits : addr.toNat < 0x1000 := of_decide_eq_true ha
  have htop : (formatA n addr).toNat / 4096 = n.toNat := by omega
  obtain ⟨hc, ho⟩ := canonicalise_word_of_other (w := formatA n addr) (by rwa [htop])
  rw [decodeWord_of_class hl (by rw [hc, htop, BitVec.toNat_setWidth]; omega), withAddr,
    addrField_eq_of_toNat addr (by rw [ho]; omega)]

/-- Format XB, whose byte is an immediate. -/
theorem decodeWord_formatXB_imm {n : BitVec 4} {f : RegId → Byte → Instr}
    (hn : n.toNat ∉ [0x0, 0x5, 0x8, 0x9, 0xE, 0xF]) (hl : lookupClass (n.setWidth 16) = some (withRegByte f))
    (x : RegId) (kk : Byte) : decodeWord (formatXB n x kk) = .ok (f x kk) := by
  have hw := toNat_formatXB n x kk
  have hkk := kk.isLt
  have htop : (formatXB n x kk).toNat / 4096 = n.toNat := by omega
  obtain ⟨hc, ho⟩ := canonicalise_word_of_other (w := formatXB n x kk) (by rwa [htop])
  rw [decodeWord_of_class hl (by rw [hc, htop, BitVec.toNat_setWidth]; omega), withRegByte,
    regField_eq_of_toNat x (by rw [ho]; omega), byteField_eq_of_toNat kk (by rw [ho]; omega)]

/-- Format XF, whose byte is a part of the class. -/
theorem decodeWord_formatXB_fn {n : BitVec 4} {kk : Byte} {f : RegId → Instr} (hn : n.toNat = 0xE ∨ n.toNat = 0xF)
    (hl : lookupClass ((n ++ kk).setWidth 16) = some (withReg f)) (x : RegId) :
    decodeWord (formatXB n x kk) = .ok (f x) := by
  have hw := toNat_formatXB n x kk
  have hkk := kk.isLt
  have htop : (formatXB n x kk).toNat / 4096 = n.toNat := by omega
  obtain ⟨hc, ho⟩ := canonicalise_word_of_xf (w := formatXB n x kk) (by rwa [htop])
  rw [decodeWord_of_class hl (by rw [hc, toNat_setWidth_append (by decide)]; omega), withReg,
    regField_eq_of_toNat x (by rw [ho]; omega)]

/-- Format XYK, whose last nibble is a part of the class. -/
theorem decodeWord_formatXYK {n k : BitVec 4} {f : RegId → RegId → Instr}
    (hn : n.toNat = 5 ∨ n.toNat = 8 ∨ n.toNat = 9) (hl : lookupClass ((n ++ k).setWidth 16) = some (withRegReg f))
    (x y : RegId) : decodeWord (formatXYK n x y k) = .ok (f x y) := by
  have hw := toNat_formatXYK n x y k
  have hk := k.isLt
  have htop : (formatXYK n x y k).toNat / 4096 = n.toNat := by omega
  obtain ⟨hc, ho⟩ := canonicalise_word_of_xyk (w := formatXYK n x y k) (by rwa [htop])
  rw [decodeWord_of_class hl (by rw [hc, toNat_setWidth_append (by decide)]; omega), withRegReg,
    regField_eq_of_toNat x (by rw [ho]; omega), regField_eq_of_toNat y (by rw [ho]; omega)]

/-- Format XYH, whose last nibble is a height. -/
theorem decodeWord_formatXYH {n : BitVec 4} {f : RegId → RegId → Nat → Instr} {h : Nat}
    (hn : n.toNat ∉ [0x0, 0x5, 0x8, 0x9, 0xE, 0xF]) (hl : lookupClass (n.setWidth 16) = some (withRegRegHeight f))
    (hh : heightFits h = true) (x y : RegId) : decodeWord (formatXYK n x y (BitVec.ofNat 4 h)) = .ok (f x y h) := by
  have hw := toNat_formatXYK n x y (BitVec.ofNat 4 h)
  have hfits : h < 16 := of_decide_eq_true hh
  rw [BitVec.toNat_ofNat, Nat.mod_eq_of_lt hfits] at hw
  have htop : (formatXYK n x y (BitVec.ofNat 4 h)).toNat / 4096 = n.toNat := by omega
  obtain ⟨hc, ho⟩ := canonicalise_word_of_other (w := formatXYK n x y (BitVec.ofNat 4 h)) (by rwa [htop])
  rw [decodeWord_of_class hl (by rw [hc, htop, BitVec.toNat_setWidth]; omega), withRegRegHeight,
    regField_eq_of_toNat x (by rw [ho]; omega), regField_eq_of_toNat y (by rw [ho]; omega),
    (heightField_eq _).trans (show _ = h by rw [ho]; omega)]

/-! ### Decode after encode -/

/-- The primary encoding of every well-formed instruction decodes to it: by its format, from its row of the table. -/
theorem decodeWord_encode {i : Instr} (hi : i.wf = true) : decodeWord (encode i) = .ok i := by
  cases i
  case cls => decide
  case ret => decide
  case nop => decide
  case jp addr => exact decodeWord_formatA (by decide) rfl hi
  case call addr => exact decodeWord_formatA (by decide) rfl hi
  case ldI addr => exact decodeWord_formatA (by decide) rfl hi
  case jpV0 addr => exact decodeWord_formatA (by decide) rfl hi
  case drw x y h => exact decodeWord_formatXYH (by decide) rfl hi x y
  case seByte x kk => exact decodeWord_formatXB_imm (by decide) rfl x kk
  case sneByte x kk => exact decodeWord_formatXB_imm (by decide) rfl x kk
  case ldByte x kk => exact decodeWord_formatXB_imm (by decide) rfl x kk
  case addByte x kk => exact decodeWord_formatXB_imm (by decide) rfl x kk
  case rnd x kk => exact decodeWord_formatXB_imm (by decide) rfl x kk
  case seReg x y => exact decodeWord_formatXYK (by decide) rfl x y
  case ldReg x y => exact decodeWord_formatXYK (by decide) rfl x y
  case or x y => exact decodeWord_formatXYK (by decide) rfl x y
  case and x y => exact decodeWord_formatXYK (by decide) rfl x y
  case xor x y => exact decodeWord_formatXYK (by decide) rfl x y
  case addReg x y => exact decodeWord_formatXYK (by decide) rfl x y
  case sub x y => exact decodeWord_formatXYK (by decide) rfl x y
  case shr x y => exact decodeWord_formatXYK (by decide) rfl x y
  case subn x y => exact decodeWord_formatXYK (by decide) rfl x y
  case shl x y => exact decodeWord_formatXYK (by decide) rfl x y
  case sneReg x y => exact decodeWord_formatXYK (by decide) rfl x y
  all_goals exact decodeWord_formatXB_fn (by decide) rfl _

theorem decodeBytes_encodeBytes_append (i : Instr) (rest : List Byte) :
    decodeBytes (encodeBytes i ++ rest) = (decodeWord (encode i)).map fun j => (j, rest) := rfl

/-- Settles O3: the two stored bytes are those of the encoded word, which decodes to the instruction. -/
theorem decodeOfEncodeIsTheInstruction : Obligations.DecodeOfEncodeIsTheInstruction := by
  unfold Obligations.DecodeOfEncodeIsTheInstruction
  intro i rest hi
  rw [decodeBytes_encodeBytes_append, decodeWord_encode hi]
  rfl

end Sys2Proof
end

section
/-! Encode after decode, the rows of R86 as numbers, the second spellings of R88 and the unknown words of R89, and
obligations O4, O6, O7, O8 and O9. -/

namespace Sys2Proof

/-! ### Encode after decode -/

theorem hiByte_wordOfBytes (hi lo : Byte) : hiByte (wordOfBytes hi lo) = hi := by
  have hlo := lo.isLt
  apply BitVec.eq_of_toNat_eq
  rw [toNat_hiByte, toNat_wordOfBytes]
  omega

theorem loByte_wordOfBytes (hi lo : Byte) : loByte (wordOfBytes hi lo) = lo := by
  have hlo := lo.isLt
  apply BitVec.eq_of_toNat_eq
  rw [toNat_loByte, toNat_wordOfBytes]
  omega

/-- The number of the word with a class `c` and an operand: the layouts of R74, R75 and R77 read backwards. -/
def numberOfClass (c opd : Nat) : Nat :=
  if c < 0x10 then c * 4096 + opd % 4096
  else if c < 0x100 then c / 16 * 4096 + opd % 256 * 16 + c % 16
  else c / 256 * 4096 + opd % 16 * 256 + c % 256

/-- Where the top nibble is not 0, the canonicalisation drops no bit of the word, and the class is none of the system
words' (R74, R75, R77). -/
theorem numberOfClass_canonicalise {w : Word} (h : 4096 ≤ w.toNat) :
    numberOfClass (canonicalise (hiByte w) (loByte w)).opcodeClass.toNat
        (canonicalise (hiByte w) (loByte w)).operand.toNat = w.toNat ∧
      (canonicalise (hiByte w) (loByte w)).opcodeClass.toNat ∉ [0x00, 0xE0, 0xEE] := by
  have hw := w.isLt
  simp only [List.mem_cons, List.not_mem_nil, or_false]
  by_cases hxyk : w.toNat / 4096 = 5 ∨ w.toNat / 4096 = 8 ∨ w.toNat / 4096 = 9
  · obtain ⟨hc, ho⟩ := canonicalise_word_of_xyk hxyk
    rw [hc, ho, numberOfClass, if_neg (by omega), if_pos (by omega)]
    omega
  by_cases hxf : w.toNat / 4096 = 0xE ∨ w.toNat / 4096 = 0xF
  · obtain ⟨hc, ho⟩ := canonicalise_word_of_xf hxf
    rw [hc, ho, numberOfClass, if_neg (by omega), if_neg (by omega)]
    omega
  · obtain ⟨hc, ho⟩ := canonicalise_word_of_other (w := w) (by
      simp only [List.mem_cons, List.not_mem_nil, or_false]
      omega)
    rw [hc, ho, numberOfClass, if_pos (by omega)]
    omega

/-- Outside the system words, what a row builds is encoded as the word with that row's key and that operand (R84, R86):
row by row, the fields the row reads are those its format writes. -/
theorem toNat_encode_row : ∀ row ∈ dispatchTable, row.1.toNat ∉ [0x00, 0xE0, 0xEE] →
    ∀ opd : Word, (encode (row.2 opd)).toNat = numberOfClass row.1.toNat opd.toNat := by
  simp only [dispatchTable, dispatchRows1, dispatchRows2, dispatchRows3, dispatchRows4, List.cons_append,
    List.nil_append, List.forall_mem_cons, List.not_mem_nil, false_imp_iff, implies_true, and_true]
  and_intros
  all_goals
    intro hkey opd
    simp [numberOfClass, encode, withAddr, withRegByte, withRegReg, withRegRegHeight, withReg, toNat_formatA,
      toNat_formatXB, toNat_formatXYK, toNat_addrField, val_regField, toNat_byteField, heightField_eq] at hkey ⊢ <;>
    omega

theorem decode_ok {hi lo : Byte} {i : Instr} (h : decode hi lo = .ok i) :
    ∃ build, lookupClass (canonicalise hi lo).opcodeClass = some build ∧ i = build (canonicalise hi lo).operand := by
  cases hl : lookupClass (canonicalise hi lo).opcodeClass with
  | some build =>
    rw [decode_of_lookup hl] at h
    exact ⟨build, rfl, (Except.ok.inj h).symm⟩
  | none =>
    rw [decode] at h
    simp only [hl] at h
    cases h

/-- A word with top nibble not 0 that decodes is the encoding of what it decodes to. -/
theorem encode_of_decodeWord {w : Word} {i : Instr} (hw : 4096 ≤ w.toNat) (h : decodeWord w = .ok i) :
    encode i = w := by
  obtain ⟨build, hl, rfl⟩ := decode_ok h
  obtain ⟨hnumber, hkey⟩ := numberOfClass_canonicalise hw
  exact BitVec.eq_of_toNat_eq ((toNat_encode_row _ (lookupClass_some hl) hkey _).trans hnumber)

/-- Words with top nibble 0 and the same second byte have the same class and operand (R76). -/
theorem decode_of_top_zero {hi lo : Byte} (h : hi.toNat < 16) : decode hi lo = decode 0 lo := by
  obtain ⟨hc, ho⟩ := canonicalise_of_zero (hi := hi) (lo := lo) (by omega)
  obtain ⟨hc', ho'⟩ := canonicalise_of_zero (hi := 0) (lo := lo) rfl
  have hcls := BitVec.eq_of_toNat_eq (hc.trans hc'.symm)
  have hopd := BitVec.eq_of_toNat_eq (ho.trans ho'.symm)
  simp only [decode, hcls, hopd]

/-- Settles O4: the word's class and operand hold all its bits, and the encoder lays them out again. -/
theorem encodeOfDecodeIsTheWord : Obligations.EncodeOfDecodeIsTheWord := by
  unfold Obligations.EncodeOfDecodeIsTheWord
  refine ⟨fun hi lo i htop h => ?encoded, fun hi lo => decode_of_top_zero⟩
  case encoded =>
    have hword : encode i = wordOfBytes hi lo := by
      apply encode_of_decodeWord
      · rw [toNat_wordOfBytes]
        omega
      · rwa [decodeWord, hiByte_wordOfBytes, loByte_wordOfBytes]
    rw [encodeBytes, hword, hiByte_wordOfBytes, loByte_wordOfBytes]

/-! ### The rows of R86 as numbers -/

/-- A number decodes to a well-formed instruction when it is the number of its encoding. -/
theorem decodeWord_ofNat_of_encode {i : Instr} {n : Nat} (hi : i.wf = true) (h : (encode i).toNat = n) :
    decodeWord (BitVec.ofNat 16 n) = .ok i := by
  rw [← h, BitVec.ofNat_toNat, BitVec.setWidth_eq, decodeWord_encode hi]

/-- A system word decodes by its second byte, whatever the discarded nibble `z` is (R76). -/
theorem decodeWord_ofNat_of_top_zero (z : Fin 16) {kk : Nat} (hkk : kk < 256) :
    decodeWord (BitVec.ofNat 16 (kk + z.val * 256)) = decode 0 (BitVec.ofNat 8 kk) := by
  have hlo : loByte (BitVec.ofNat 16 (kk + z.val * 256)) = BitVec.ofNat 8 kk := by
    apply BitVec.eq_of_toNat_eq
    rw [toNat_loByte, BitVec.toNat_ofNat, BitVec.toNat_ofNat]
    omega
  rw [decodeWord, hlo]
  apply decode_of_top_zero
  rw [toNat_hiByte, BitVec.toNat_ofNat]
  omega

/-- Settles O6: a row's number is that of the encoding of its operation, and the system words decode by their second
byte. -/
theorem everyPrimaryEncodingDecodes : Obligations.EveryPrimaryEncodingDecodes := by
  unfold Obligations.EveryPrimaryEncodingDecodes
  refine ⟨fun z => ?system, fun addr ha => ?addr, fun x kk => ?imm, fun x y => ?regs, fun x y h hh => ?drw,
    fun x => ?fn⟩
  case system =>
    and_intros <;> rw [decodeWord_ofNat_of_top_zero z (by decide)] <;> decide
  case addr =>
    have hfits : addrFits addr = true := decide_eq_true ha
    and_intros
    all_goals
      refine decodeWord_ofNat_of_encode hfits ?_
      rw [encode, toNat_formatA, Nat.mod_eq_of_lt ha]
      rfl
  case imm =>
    and_intros
    all_goals exact decodeWord_ofNat_of_encode rfl (toNat_formatXB _ x kk)
  case regs =>
    and_intros
    all_goals
      refine decodeWord_ofNat_of_encode rfl ?_
      simp only [encode, toNat_formatXYK, BitVec.reduceToNat]
      omega
  case drw =>
    refine decodeWord_ofNat_of_encode (decide_eq_true hh) ?_
    rw [encode, toNat_formatXYK, BitVec.toNat_ofNat, Nat.mod_eq_of_lt hh]
    rfl
  case fn =>
    and_intros
    all_goals
      refine decodeWord_ofNat_of_encode rfl ?_
      simp only [encode, toNat_formatXB, BitVec.reduceToNat]
      omega

/-! ### The second spellings of top nibble 0 (R88), and sample words -/

/-- Settles O7: with the discarded nibble at 0 each byte decodes as listed, and the nibble is discarded. -/
theorem aliasWordsRunWithOperandZero : Obligations.AliasWordsRunWithOperandZero := by
  unfold Obligations.AliasWordsRunWithOperandZero
  intro hi hhi p hp
  rw [decode_of_top_zero hhi]
  revert p
  decide

/-- Settles O9, by evaluating the decoder on the nine words. -/
theorem writtenOutWordsDecode : Obligations.WrittenOutWordsDecode := by
  unfold Obligations.WrittenOutWordsDecode
  decide

/-! ### The unknown words (R89) -/

/-- The class keys of one byte: those of top nibbles 0 to D (R84, R88). -/
def shortKeys : List Nat :=
  [0x00, 0x01, 0x02, 0x03, 0x04, 0x06, 0x07, 0x0A, 0x0B, 0x0C, 0x0D, 0x50, 0x80, 0x81, 0x82, 0x83, 0x84, 0x85, 0x86,
    0x87, 0x8E, 0x90, 0xE0, 0xEE]

/-- The class keys of top nibbles E and F (R84). -/
def longKeys : List Nat := [0xE9E, 0xEA1, 0xF07, 0xF0A, 0xF15, 0xF18, 0xF1E, 0xF29, 0xF33, 0xF55, 0xF65]

/-- The keys of the dispatch table, as numbers, in another order than the table's (R84). -/
theorem dispatchTable_keys_perm : (dispatchTable.map fun row => row.1.toNat).Perm (shortKeys ++ longKeys) := by
  decide

theorem lookupClass_eq_none_iff {c : Word} : lookupClass c = none ↔ c.toNat ∉ shortKeys ++ longKeys := by
  rw [lookupClass, Option.map_eq_none_iff, List.find?_eq_none, ← dispatchTable_keys_perm.mem_iff, List.mem_map,
    not_exists]
  simp only [beq_iff_eq, not_and, BitVec.toNat_inj]

/-- A word is unknown when its class is no key of the table, and the error names that class (R83). -/
theorem decode_eq_unknownOpcode_iff {hi lo : Byte} :
    decode hi lo = .error (.unknownOpcode (canonicalise hi lo).opcodeClass) ↔
      (canonicalise hi lo).opcodeClass.toNat ∉ shortKeys ++ longKeys := by
  rw [← lookupClass_eq_none_iff]
  cases hl : lookupClass (canonicalise hi lo).opcodeClass with
  | some build => simp [decode_of_lookup hl]
  | none =>
    rw [decode]
    simp only [hl]

/-! The keys by the top nibble whose classes they are. -/

theorem mem_keys_iff_of_lt {c : Nat} (h : c < 256) : c ∈ shortKeys ++ longKeys ↔ c ∈ shortKeys := by
  have hlong : ∀ k ∈ longKeys, 256 ≤ k := by decide
  rw [List.mem_append, or_iff_left (mt (hlong c) (by omega))]

theorem mem_keys_iff_of_ge {c : Nat} (h : 256 ≤ c) : c ∈ shortKeys ++ longKeys ↔ c ∈ longKeys := by
  have hshort : ∀ k ∈ shortKeys, k < 256 := by decide
  rw [List.mem_append, or_iff_right (mt (hshort c) (by omega))]

theorem not_mem_keys_xyk_iff : ∀ k < 16,
    (5 * 16 + k ∉ shortKeys ++ longKeys ↔ k ≠ 0) ∧
      (8 * 16 + k ∉ shortKeys ++ longKeys ↔ k ∈ [8, 9, 0xA, 0xB, 0xC, 0xD, 0xF]) ∧
      (9 * 16 + k ∉ shortKeys ++ longKeys ↔ k ≠ 0) := by
  decide

theorem mem_keys_xf_iff {lo : Nat} (h : lo < 256) :
    (0xE * 256 + lo ∈ shortKeys ++ longKeys ↔ lo ∈ [0x9E, 0xA1]) ∧
      (0xF * 256 + lo ∈ shortKeys ++ longKeys ↔ lo ∈ [0x07, 0x0A, 0x15, 0x18, 0x1E, 0x29, 0x33, 0x55, 0x65]) := by
  rw [mem_keys_iff_of_ge (by omega), mem_keys_iff_of_ge (by omega)]
  simp only [longKeys, List.mem_cons, List.not_mem_nil, or_false]
  constructor <;> constructor <;> omega

theorem mem_keys_of_other : ∀ n < 16, n ∉ [0x0, 0x5, 0x8, 0x9, 0xE, 0xF] → n ∈ shortKeys ++ longKeys := by
  decide

/-- Settles O8: by top nibble, the class is a key exactly outside the words listed. -/
theorem unknownWordsAreThoseOfR89 : Obligations.UnknownWordsAreThoseOfR89 := by
  unfold Obligations.UnknownWordsAreThoseOfR89
  intro hi lo
  have hhi := hi.isLt
  obtain ⟨hfive, height, hnine⟩ := not_mem_keys_xyk_iff (lo.toNat % 16) (by omega)
  obtain ⟨hE, hF⟩ := mem_keys_xf_iff lo.isLt
  simp only [decode_eq_unknownOpcode_iff]
  by_cases hother : hi.toNat / 16 ∉ [0x0, 0x5, 0x8, 0x9, 0xE, 0xF]
  · rw [(canonicalise_of_other hother).1]
    have hkey := mem_keys_of_other _ (by omega) hother
    simp only [List.mem_cons, List.not_mem_nil, or_false, not_or] at hother
    simp [hother, hkey]
  simp only [List.mem_cons, List.not_mem_nil, or_false, not_not] at hother
  rcases hother with hn | hn | hn | hn | hn | hn
  · rw [(canonicalise_of_zero hn).1, mem_keys_iff_of_lt lo.isLt, hn]
    simp [shortKeys]
  · rw [(canonicalise_of_xyk (.inl hn)).1, hn, hfive]
    simp
  · rw [(canonicalise_of_xyk (.inr (.inl hn))).1, hn, height]
    simp
  · rw [(canonicalise_of_xyk (.inr (.inr hn))).1, hn, hnine]
    simp
  · rw [(canonicalise_of_xf (.inl hn)).1, hn, hE]
    simp
  · rw [(canonicalise_of_xf (.inr hn)).1, hn, hF]
    simp

end Sys2Proof
end

section
/-! The memory's canonical form: memories that read alike are the same data, and obligation O17. -/

namespace Sys2Proof.Machine

theorem Memory.wf_cons_iff {a : Nat} {v : Byte} {m : Memory} :
    Memory.wf ((a, v) :: m) ↔ (∀ c ∈ m, a < c.1) ∧ a < Config.memSize ∧ v ≠ resetByte a ∧ m.wf := by
  simp only [Memory.wf, List.pairwise_cons, List.forall_mem_cons]
  tauto

/-- The first listed address reads as its entry. -/
theorem Memory.read_head {a : Nat} {v : Byte} {m : Memory} : Memory.read ((a, v) :: m) a = v := by
  rw [Memory.read, if_pos rfl]

/-- Past the first entry, a read sees the rest of the list. -/
theorem Memory.read_cons_of_ne {a b : Nat} {v : Byte} {m : Memory} (h : b ≠ a) :
    Memory.read ((a, v) :: m) b = m.read b := by
  rw [Memory.read, if_neg h]

/-- Of two canonical memories that read alike, the second does not start above the first: it would read as the reset
contents at the first's lowest entry. -/
theorem Memory.head_le_head {a b : Nat} {v u : Byte} {m m' : Memory} (hm : Memory.wf ((a, v) :: m))
    (hm' : Memory.wf ((b, u) :: m'))
    (h : ∀ c < Config.memSize, Memory.read ((a, v) :: m) c = Memory.read ((b, u) :: m') c) : b ≤ a := by
  obtain ⟨-, ha, hv, -⟩ := Memory.wf_cons_iff.1 hm
  obtain ⟨hrise, -, -, -⟩ := Memory.wf_cons_iff.1 hm'
  by_contra hlt
  rw [not_le] at hlt
  have hreset : Memory.read ((b, u) :: m') a = resetByte a := by
    apply Memory.read_of_lt
    rw [List.forall_mem_cons]
    exact ⟨hlt, fun c hc => hlt.trans (hrise c hc)⟩
  exact hv (Memory.read_head.symm.trans ((h a ha).trans hreset))

/-- A canonical memory that lists an address does not read as the reset contents there. -/
theorem Memory.not_reads_reset {a : Nat} {v : Byte} {m : Memory} (hm : Memory.wf ((a, v) :: m)) :
    ¬ ∀ c < Config.memSize, Memory.read ((a, v) :: m) c = resetByte c := by
  obtain ⟨-, ha, hv, -⟩ := Memory.wf_cons_iff.1 hm
  exact fun h => hv (Memory.read_head.symm.trans (h a ha))

/-- Settles O17, by induction on both lists: two first entries are at the same address, since the lower one alone would
read differently there. -/
theorem canonicalMemoriesThatReadAlikeAreEqual : Obligations.CanonicalMemoriesThatReadAlikeAreEqual := by
  unfold Obligations.CanonicalMemoriesThatReadAlikeAreEqual
  intro m
  induction m with
  | nil =>
    intro m' _ hm' h
    cases m' with
    | nil => rfl
    | cons d m' => exact (Memory.not_reads_reset hm' fun c hc => (h c hc).symm).elim
  | cons d m ih =>
    obtain ⟨a, v⟩ := d
    intro m' hm hm' h
    cases m' with
    | nil => exact (Memory.not_reads_reset hm h).elim
    | cons d' m' =>
      obtain ⟨b, u⟩ := d'
      obtain rfl : a = b :=
        Nat.le_antisymm (Memory.head_le_head hm' hm fun c hc => (h c hc).symm) (Memory.head_le_head hm hm' h)
      obtain ⟨hrise, ha, -, hwf⟩ := Memory.wf_cons_iff.1 hm
      obtain ⟨hrise', -, -, hwf'⟩ := Memory.wf_cons_iff.1 hm'
      obtain rfl : v = u := Memory.read_head.symm.trans ((h a ha).trans Memory.read_head)
      rw [ih m' hwf hwf' fun c hc => ?tails]
      case tails =>
        by_cases hca : c = a
        · subst hca
          rw [Memory.read_of_lt hrise, Memory.read_of_lt hrise']
        · rw [← Memory.read_cons_of_ne hca, h c hc, Memory.read_cons_of_ne hca]

end Sys2Proof.Machine
end

section
/-! What every step keeps and who writes what, over all instructions, from the inversion lemmas of `step` and `exec`
(`exec_writes`, `exec_pc_cases`), and obligations O10, O14, O15, O18, O19 and O20. -/

namespace Sys2Proof.Machine

/-- Settles O10: the bytes decode, so they are fetched, and with no fault latched what is fetched runs. -/
theorem stepRunsTheInstructionAtPc : Obligations.StepRunsTheInstructionAtPc := by
  unfold Obligations.StepRunsTheInstructionAtPc
  intro s i hn hpc hd
  exact step_of_fetch_ok hn (State.fetch_of_decode hpc hd)

/-! ### The invariants (R33, R105) -/

/-- A next state is the old one with the latch written, or is where the fetched operation leads. -/
theorem step_next_cases {s t : State} (h : step s = .next t) :
    (∃ f, t = s.latched f) ∨ ∃ i, s.fetch = .ok i ∧ exec i s = .next t := by
  rcases step_cases s with ⟨f, -, hf⟩ | ⟨-, f, -, hf⟩ | ⟨-, i, hi, he⟩
  · cases hf.symm.trans h
  · exact .inl ⟨f, (Host.Outcome.next.inj (hf.symm.trans h)).symm⟩
  · exact .inr ⟨i, hi, he.symm.trans h⟩

/-- An operation keeps canonical memory and a display of cells 0 and 1. -/
theorem State.Inv.exec {i : Instr} {s t : State} (hs : s.Inv) (h : exec i s = .next t) : t.Inv := by
  obtain ⟨-, hmem, hscreen, -⟩ := exec_writes h
  refine ⟨?mem, ?cells⟩
  case mem =>
    rcases hmem with hmem | ⟨-, bs, hmem⟩ <;> rw [hmem]
    · exact hs.mem_wf
    · exact Memory.wf_writeBytes hs.mem_wf _ bs
  case cells =>
    rcases hscreen with hscreen | ⟨-, hscreen⟩ | ⟨x, y, n, -, hscreen⟩ <;> rw [hscreen]
    · exact hs.cells
    · exact fun idx => .inl (by simp [Vector.get_eq_getElem])
    · exact drawRows_binary (c := { screen := s.screen, hit := false }) hs.cells _ _ _ _

/-- Settles O14: latching a fault touches neither memory nor display, and an operation keeps both forms. -/
theorem stepKeepsTheInvariant : Obligations.StepKeepsTheInvariant := by
  unfold Obligations.StepKeepsTheInvariant
  intro s t hs h
  rcases step_next_cases h with ⟨f, rfl⟩ | ⟨i, -, he⟩
  · exact ⟨hs.mem_wf, hs.cells⟩
  · exact hs.exec he

/-- A fetched operation keeps the bounds: it starts from `pc` at most 0xFFE, and is well formed. -/
theorem State.PcBounded.exec {i : Instr} {s t : State} (hs : s.PcBounded) (hi : s.fetch = .ok i)
    (h : exec i s = .next t) : t.PcBounded := by
  obtain ⟨hfetch, hd⟩ := State.fetch_ok hi
  have hpc : s.pc.toNat + 1 < 4096 := hfetch
  refine ⟨?pc, fun k => ?stack⟩
  case pc =>
    rcases exec_pc_cases (decode_wf hd) h with hp | hp | hp | hp | ⟨k, hp⟩
    · rw [hp]
      exact hs.pc_le
    · rw [hp]
      bv_omega
    · rw [hp]
      bv_omega
    · exact hp
    · have hk : (s.stack.get k).toNat + 2 ≤ 4096 := hs.stack_le k
      rw [hp]
      bv_omega
  case stack =>
    obtain ⟨-, -, -, -, -, -, hstack, -⟩ := exec_writes h
    rcases hstack with hstack | ⟨-, hsp, hstack⟩ <;> rw [hstack]
    · exact hs.stack_le k
    · rw [get_set_stack]
      split
      · exact hfetch
      · exact hs.stack_le k

/-- Settles O15: latching a fault moves neither `pc` nor the stack, and a fetched operation keeps the bounds. -/
theorem stepKeepsThePcBound : Obligations.StepKeepsThePcBound := by
  unfold Obligations.StepKeepsThePcBound
  intro s t hs h
  rcases step_next_cases h with ⟨f, rfl⟩ | ⟨i, hi, he⟩
  · exact ⟨hs.pc_le, hs.stack_le⟩
  · exact hs.exec hi he

/-! ### Who writes what -/

/-- Settles O18: every other instruction leaves the memory as data. -/
theorem onlyLdBAndLdMemWriteMemory : Obligations.OnlyLdBAndLdMemWriteMemory := by
  unfold Obligations.OnlyLdBAndLdMemWriteMemory
  rintro i s t h ⟨a, ha⟩
  obtain ⟨-, hmem | ⟨hi, -⟩, -⟩ := exec_writes h
  · exact (ha (by rw [State.readMem, hmem, State.readMem])).elim
  · exact hi

/-- An operation that leaves a latched fault, started with none, wrote the latch alone (R213). -/
theorem eq_latched_of_exec_next {i : Instr} {s t : State} (hn : s.fault = none) (h : exec i s = .next t)
    (ht : t.fault ≠ none) : ∃ f, t = s.latched f := by
  rcases exec_completes_or_raises i s with ⟨u, hu, hfault⟩ | ⟨f, hf⟩
  · obtain rfl : t = u := Host.Outcome.next.inj (h.symm.trans hu)
    exact (ht (hfault.trans hn)).elim
  · exact ⟨f, Host.Outcome.next.inj (h.symm.trans hf)⟩

/-- A completed CLS or DRW sets `DRAWN` (R34). -/
theorem drawn_of_draw_completed {i : Instr} {s t : State} (hi : i = .cls ∨ ∃ x y n, i = .drw x y n)
    (h : exec i s = .next t) (ht : t.fault = none) : t.drawn = true := by
  rcases hi with rfl | ⟨x, y, n, rfl⟩
  · cases h
    rfl
  · by_cases hf : dataFits n s
    · rw [exec_drw_of_fits hf] at h
      cases h
      rfl
    · rw [exec_drw_of_not_fits hf] at h
      cases h
      cases ht

/-- Settles O19: the display and `DRAWN` are written by CLS and DRW alone, and a faulting DRW writes the latch alone. -/
theorem displayAndDrawFlagBelongToClsAndDrw : Obligations.DisplayAndDrawFlagBelongToClsAndDrw := by
  unfold Obligations.DisplayAndDrawFlagBelongToClsAndDrw
  refine ⟨?cells, fun i s t hn h => ⟨fun ⟨hi, ht⟩ => drawn_of_draw_completed hi h ht, fun hnot => ?kept⟩,
    State.ackDraw_drawn⟩
  case cells =>
    rintro i s t h ⟨idx, hidx⟩
    obtain ⟨-, -, hscreen | ⟨hi, -⟩ | ⟨x, y, n, hi, -⟩, -⟩ := exec_writes h
    · exact (hidx (by rw [State.readCell, hscreen, State.readCell])).elim
    · exact .inl hi
    · exact .inr ⟨x, y, n, hi⟩
  case kept =>
    obtain ⟨-, -, -, hsame | ⟨hi, -⟩, -⟩ := exec_writes h
    · exact hsame
    · obtain ⟨f, rfl⟩ := eq_latched_of_exec_next hn h fun ht => hnot ⟨hi, ht⟩
      rfl

/-- Settles O20: each part is one that the instruction leaves, or the instruction is a writer of it. -/
theorem specialStateHasOnlyItsWriters : Obligations.SpecialStateHasOnlyItsWriters := by
  unfold Obligations.SpecialStateHasOnlyItsWriters
  intro i s t h
  obtain ⟨hkey, -, -, -, hi, hsp, hstack, hdt, hst, hrnd⟩ := exec_writes h
  refine ⟨hi.resolve_left, hsp.resolve_left, ?stack, hdt.resolve_left, hst.resolve_left, ?key, hrnd⟩
  case stack =>
    rintro ⟨k, hk⟩
    rcases hstack with hsame | ⟨hcall, -⟩
    · exact (hk (by rw [hsame])).elim
    · exact hcall
  case key =>
    intro k
    rw [State.pressed, hkey, State.pressed]

end Sys2Proof.Machine
end

section
/-! Round trips: two calls and two returns (R112, R116), bytes stored and fetched (R53, R63), a sprite drawn twice
(R184), and the byte RND draws (R145); obligations O25, O32, O37 and O40. -/

namespace Sys2Proof.Machine

/-- Settles O32: RND is one draw, one write of `Vx` and the advance. -/
theorem rndMasksTheByteDrawn : Obligations.RndMasksTheByteDrawn := by
  unfold Obligations.RndMasksTheByteDrawn
  intro x kk s
  refine ⟨_, done_eq _, fun b _ => ?masked, rfl, fun r hr => ?regs, pcMoves_two rfl, ?frame⟩
  case masked =>
    rw [State.advance_reg, State.reg_setReg_self, State.drawByte_fst]
    exact BitVec.getLsbD_and
  case regs => exact State.reg_setReg_of_ne _ x _ r (by simpa using hr)
  case frame => simp [onlyChanges, Part.forall_iff, Part.same]

/-- Settles O37: with `x` at least 1 both bytes are among those stored. -/
theorem storedBytesAreTheBytesFetched : Obligations.StoredBytesAreTheBytesFetched := by
  unfold Obligations.StoredBytesAreTheBytesFetched
  intro x s hwf hx hfits
  obtain ⟨hstores, -⟩ := ldMemStoresTheRegisters x s hwf
  obtain ⟨t, ht, hstored, -⟩ := hstores hfits
  have h0 : t.readMem s.i.toNat = s.reg 0 := hstored 0 (Fin.zero_le x)
  have h1 : t.readMem (s.i.toNat + 1) = s.reg 1 := hstored 1 hx
  have hnext : (t.setPc s.i).pc.toNat + 1 < Config.memSize := Nat.lt_of_le_of_lt (Nat.add_le_add_left hx _) hfits
  refine ⟨t, ht, ?_⟩
  rw [State.fetchBytes_of_lt hnext]
  simp only [State.setPc_pc, State.setPc_readMem, h0, h1]

/-- Settles O25: each CALL pushes its own address at the depth the matching RET reads, and the second push keeps the
first entry. -/
theorem callsReturnInReverseOrder : Obligations.CallsReturnInReverseOrder := by
  unfold Obligations.CallsReturnInReverseOrder
  intro a b s hsp
  refine ⟨_, _, _, _, exec_call_of_lt a (by omega), exec_call_of_lt b (Nat.succ_lt_succ hsp),
    exec_ret_of_eq_succ (k := ⟨s.sp.val + 1, by omega⟩) rfl,
    exec_ret_of_eq_succ (k := ⟨s.sp.val, by omega⟩) rfl, rfl, ?_, rfl, ?_⟩
  all_goals exact pcMoves_two (by simp [get_set_stack])

/-- Settles O40: the second draw finds the same sprite at the same origin, so each covered cell is XORed with 1 twice,
and is lit in between exactly when it was dark before. -/
theorem drawingTwiceRestoresTheDisplay : Obligations.DrawingTwiceRestoresTheDisplay := by
  unfold Obligations.DrawingTwiceRestoresTheDisplay
  intro x y x' y' h s t hh _ hfits ht hx hy
  obtain ⟨t', ht', hcov, hncov, -, -, -, -, -, hframe⟩ := (drwXorsTheSpriteAndReportsErasure x y h s hh).1 hfits
  obtain rfl : t = t' := Host.Outcome.next.inj (ht.symm.trans ht')
  have hi : t.i = s.i := hframe .i (by decide)
  have hmem : ∀ a, t.readMem a = s.readMem a := hframe .mem (by decide)
  have hsprite (idx : CellIdx) :
      spriteCovers t (t.reg x') (t.reg y') h idx ↔ spriteCovers s (s.reg x) (s.reg y) h idx := by
    simp only [spriteCovers, hi, hmem, hx, hy]
  obtain ⟨u, hu, hcov', hncov', hone, hzero, -⟩ :=
    (drwXorsTheSpriteAndReportsErasure x' y' h t hh).1 (by rwa [dataFits, hi])
  simp only [hsprite] at hcov' hncov' hone hzero
  have hlit : (∃ idx : CellIdx, spriteCovers s (s.reg x) (s.reg y) h idx ∧ t.readCell idx = 1) ↔
      ∃ idx : CellIdx, spriteCovers s (s.reg x) (s.reg y) h idx ∧ s.readCell idx = 0 :=
    exists_congr fun idx => and_congr_right fun hc => by
      rw [hcov idx hc]
      exact xor_right_eq_self_iff
  rw [hlit] at hone hzero
  refine ⟨u, hu, fun idx => ?cells, fun hflag => ?flag, hone⟩
  case cells =>
    by_cases hc : spriteCovers s (s.reg x) (s.reg y) h idx
    · rw [hcov' idx hc, hcov idx hc, BitVec.xor_assoc, BitVec.xor_self, BitVec.xor_zero]
    · rw [hncov' idx hc, hncov idx hc]
  case flag =>
    by_contra hdark
    rw [hzero hdark] at hflag
    cases hflag

end Sys2Proof.Machine
end
